-- ==== Sys2Proof/Word.lean ====
section
/-! DEFINITION. The bit-vector types of the machine: what the spec treats as bits. -/

namespace Sys2Proof

/-- A register, an instruction, a program-counter value or a data word: 32 bits (R21, R25, R40, R60). -/
abbrev Word := BitVec 32

/-- One half of a packed complex value: 16 bits (R120). -/
abbrev Half := BitVec 16

/-- One byte of the host's memory cells (`Host.Cell`); the machine itself never names a byte (R43). -/
abbrev Byte := BitVec 8

/-- A register number as the encodings hold it: a 5-bit field naming one of 32 registers (R20, R69). -/
abbrev RegNum := BitVec 5

/-- The 12-bit pattern of the IMM field (R63, R68). -/
abbrev Imm12 := BitVec 12

end Sys2Proof
end

