-- ==== Sys2Proof/Config.lean ====
section
/-! DEFINITION. The parameters of R4: fixed for a run, chosen before it. `Config.default` is every
parameter at the value the spec gives as its default. The numerics the spec leaves OPEN, or asks to
keep as configuration functions (R10.6, R85, R122, R125, R126), have besides their default a setting
`free`: an opaque function, of which nothing can be proved (log entry 11). -/

namespace Sys2Proof

/-- How a 12-bit IMM is widened to 32 bits (parameter `IMM_EXT`, R68). -/
inductive ImmMode where
  /-- Copy bit 11 into bits 31:12. -/
  | sign
  /-- Clear bits 31:12. -/
  | zero
deriving DecidableEq, Repr

/-- `IMM_EXT(op)`, one mode for each instruction that widens IMM (R68). SLL and SRL read IMM as an
unsigned count and have no mode (log entry 13). -/
structure ImmExt where
  addi : ImmMode
  lw   : ImmMode
  sw   : ImmMode
  beq  : ImmMode
  blt  : ImmMode
  bgt  : ImmMode
  andi : ImmMode
deriving DecidableEq, Repr

/-- `SHIFT_MODE` (R95): what a shift count of 32 or more does. -/
inductive ShiftMode where
  /-- Every bit is shifted out: the result is 0. -/
  | full
  /-- Only IMM[4:0] is used. -/
  | mod32
deriving DecidableEq, Repr

/-- `DIV_FN` (R85): the quotient of DIV for a divisor other than 0. -/
inductive DivFn where
  /-- Signed, truncating toward zero: the spec's default. -/
  | truncate
  /-- Signed, rounding toward minus infinity (95_test_vectors.md section 4; log entry 18). -/
  | floor
  /-- Unsigned (95_test_vectors.md section 4; log entry 18). -/
  | unsigned
  /-- Any function at all: `Config.freeDiv`. -/
  | free
deriving DecidableEq, Repr

/-- `CPLX_COMPONENT` (R120): what a half of a complex result holds when the exact part does not fit 16 bits
as a signed number. Log entry 22 says where the settings beside the default come from. -/
inductive CplxComponent where
  /-- The low 16 bits of the part: the spec's default. -/
  | wrap
  /-- The nearest of -32768 and 32767. -/
  | saturate
  /-- Any pattern at all: `Config.freeComponent`. -/
  | free
deriving DecidableEq, Repr

/-- `MULC_FN` (R125). -/
inductive MulcFn where
  /-- The integer complex product, each part truncated to 16 bits: the spec's default. -/
  | intProduct
  /-- Any function at all: `Config.freeMulc`. -/
  | free
deriving DecidableEq, Repr

/-- `ABS_FN` (R126), OPEN. -/
inductive AbsFn where
  /-- The modulus, rounded down, in the real half and 0 in the imaginary half: the spec's default. -/
  | modulus
  /-- Any function at all: `Config.freeAbs`. -/
  | free
deriving DecidableEq, Repr

/-- `DIVC_FN` (R122), OPEN. -/
inductive DivcFn where
  /-- The complex quotient, each part truncated toward zero: the spec's default. -/
  | truncQuotient
  /-- Any function at all, which may also raise `ComplexDivideByZero`: `Config.freeDivc`. -/
  | free
deriving DecidableEq, Repr

/-- The parameters of R4 that a model takes as configuration fields (92_eei_decisions.md, "Open
parameters, gathered", and the list after it; 93_implementation_defined.md U12 for `CPLX_COMPONENT`). -/
structure Config where
  /-- `R0_HARDWIRED_ZERO` (R22). -/
  r0Hardwired   : Bool
  /-- `RA_INDEX`, the number of `$ra` (R23). -/
  raIndex       : RegNum
  /-- `RESET_PC` (R33). -/
  resetPc       : Word
  /-- `HALT_PC` (R162); `none` is its default, the number of words in the program. -/
  haltPc        : Option Word
  /-- `DMEM_WORDS`, at most 2^32 (R40). -/
  dmemWords     : Nat
  /-- `UNIFIED_MEMORY` (R51; log entry 12). -/
  unifiedMemory : Bool
  /-- `IMM_EXT` (R68). -/
  immExt        : ImmExt
  /-- `STRICT_UNUSED` (R67). -/
  strictUnused  : Bool
  /-- `DIV_FN` (R85). -/
  divFn         : DivFn
  /-- `SHIFT_MODE` (R95). -/
  shiftMode     : ShiftMode
  /-- `CMP_SIGNED` (R110). -/
  cmpSigned     : Bool
  /-- `CPLX_REAL_HI` (R120). -/
  cplxRealHi    : Bool
  /-- `CPLX_COMPONENT` (R120). -/
  cplxComponent : CplxComponent
  /-- `MULC_FN` (R125). -/
  mulcFn        : MulcFn
  /-- `ABS_FN` (R126). -/
  absFn         : AbsFn
  /-- `DIVC_FN` (R122). -/
  divcFn        : DivcFn
deriving DecidableEq, Repr

/-- The default of `IMM_EXT` (R68): sign for ADDI, LW, SW, BEQ, BLT, BGT, zero for ANDI. -/
def ImmExt.default : ImmExt :=
  { addi := .sign, lw := .sign, sw := .sign, beq := .sign, blt := .sign, bgt := .sign, andi := .zero }

/-- Every parameter at the spec's default (R4; log entry 5). -/
def Config.default : Config :=
  { r0Hardwired := false, raIndex := 31, resetPc := 0, haltPc := none, dmemWords := 2 ^ 32
    unifiedMemory := false, immExt := ImmExt.default, strictUnused := true, divFn := .truncate
    shiftMode := .full, cmpSigned := true, cplxRealHi := true, cplxComponent := .wrap, mulcFn := .intProduct
    absFn := .modulus, divcFn := .truncQuotient }

/-- Free value: the quotient of DIV where `DIV_FN` is left open (R85; log entry 11). -/
opaque Config.freeDiv : Word → Word → Word

/-- Free value: the half that stands for a part that does not fit it, where `CPLX_COMPONENT` is left open
(R120, D23; log entry 22). -/
opaque Config.freeComponent : Int → Half

/-- Free value: the result of MULC where `MULC_FN` is left open (R125; log entry 11). -/
opaque Config.freeMulc : Word → Word → Word

/-- Free value: the result of ABS where `ABS_FN` is left open (R126; log entry 11). -/
opaque Config.freeAbs : Word → Word

/-- Free value: the result of DIVC where `DIVC_FN` is left open (R122; log entry 11); `none` is the
operands on which it raises `ComplexDivideByZero`. -/
opaque Config.freeDivc : Word → Word → Option Word

end Sys2Proof
end

