-- ==== Sys2Proof/Syntax.lean ====
section
/-! DEFINITION. The instructions: one constructor per row of spec/opcode_table.json, operands in the
order of the table's assembler syntax (R70, R71). -/

namespace Sys2Proof

/-- The 23 instructions (R2, R65). `rd` is the destination register, `rs1` and `rs2` the source
registers; an operand that an instruction does not have is no argument of its constructor (R75).
Every operand is typed by its field's width, so that no operand out of range can be written. -/
inductive Instr where
  | add  (rd rs1 rs2 : RegNum)
  | addi (rd rs1 : RegNum) (imm : Imm12)
  | sub  (rd rs1 rs2 : RegNum)
  | mul  (rd rs1 rs2 : RegNum)
  | div  (rd rs1 rs2 : RegNum)
  | and  (rd rs1 rs2 : RegNum)
  | or   (rd rs1 rs2 : RegNum)
  | andi (rd rs1 : RegNum) (imm : Imm12)
  | sll  (rd rs1 : RegNum) (imm : Imm12)
  | srl  (rd rs1 : RegNum) (imm : Imm12)
  | lw   (rd rs1 : RegNum) (imm : Imm12)
  /-- `sw data, base, imm`: `rs2` holds the data and `rs1` the base address (90_conflicts.md C6). -/
  | sw   (rs2 rs1 : RegNum) (imm : Imm12)
  | divc (rd rs1 rs2 : RegNum)
  | beq  (rs1 rs2 : RegNum) (imm : Imm12)
  | blt  (rs1 rs2 : RegNum) (imm : Imm12)
  | bgt  (rs1 rs2 : RegNum) (imm : Imm12)
  | jmp  (rs1 : RegNum)
  | jal  (rs1 : RegNum)
  | addc (rd rs1 rs2 : RegNum)
  | subc (rd rs1 rs2 : RegNum)
  | mulc (rd rs1 rs2 : RegNum)
  | abs  (rd rs1 : RegNum)
  | conj (rd rs1 : RegNum)
deriving DecidableEq, Repr

end Sys2Proof
end

