-- ==== Sys2Proof/WellFormed.lean ====
section
/-! DEFINITION. The spec's conservative well-formedness predicate on instructions
(93_implementation_defined.md, after the table of U entries). It is a check a claim may use; the
machine does not consult it, since the spec's rules give every one of these words an effect
(R95, R115; log entry 15). That a word decodes at all (U1, U2) is `decode`'s answer. -/

namespace Sys2Proof

/-- U5 (R95): no SLL or SRL has a count of 32 or more. -/
def Instr.shiftCountOk : Instr → Bool
  | .sll _ _ imm => decide (imm.toNat < 32)
  | .srl _ _ imm => decide (imm.toNat < 32)
  | _ => true

/-- U13 (R115): no JAL takes its target from the link register. -/
def Instr.linkOk (cfg : Config) : Instr → Bool
  | .jal rs1 => rs1 != cfg.raIndex
  | _ => true

/-- The registers an instruction reads (R24). -/
def Instr.sources : Instr → List RegNum
  | .add _ rs1 rs2  => [rs1, rs2]
  | .addi _ rs1 _   => [rs1]
  | .sub _ rs1 rs2  => [rs1, rs2]
  | .mul _ rs1 rs2  => [rs1, rs2]
  | .div _ rs1 rs2  => [rs1, rs2]
  | .and _ rs1 rs2  => [rs1, rs2]
  | .or _ rs1 rs2   => [rs1, rs2]
  | .andi _ rs1 _   => [rs1]
  | .sll _ rs1 _    => [rs1]
  | .srl _ rs1 _    => [rs1]
  | .lw _ rs1 _     => [rs1]
  | .sw rs2 rs1 _   => [rs1, rs2]
  | .divc _ rs1 rs2 => [rs1, rs2]
  | .beq rs1 rs2 _  => [rs1, rs2]
  | .blt rs1 rs2 _  => [rs1, rs2]
  | .bgt rs1 rs2 _  => [rs1, rs2]
  | .jmp rs1        => [rs1]
  | .jal rs1        => [rs1]
  | .addc _ rs1 rs2 => [rs1, rs2]
  | .subc _ rs1 rs2 => [rs1, rs2]
  | .mulc _ rs1 rs2 => [rs1, rs2]
  | .abs _ rs1      => [rs1]
  | .conj _ rs1     => [rs1]

/-- The register an instruction writes (R24), where it writes one; JAL writes `$ra` (R23). -/
def Instr.dest (cfg : Config) : Instr → Option RegNum
  | .add rd _ _  => some rd
  | .addi rd _ _ => some rd
  | .sub rd _ _  => some rd
  | .mul rd _ _  => some rd
  | .div rd _ _  => some rd
  | .and rd _ _  => some rd
  | .or rd _ _   => some rd
  | .andi rd _ _ => some rd
  | .sll rd _ _  => some rd
  | .srl rd _ _  => some rd
  | .lw rd _ _   => some rd
  | .sw _ _ _    => none
  | .divc rd _ _ => some rd
  | .beq _ _ _   => none
  | .blt _ _ _   => none
  | .bgt _ _ _   => none
  | .jmp _       => none
  | .jal _       => some cfg.raIndex
  | .addc rd _ _ => some rd
  | .subc rd _ _ => some rd
  | .mulc rd _ _ => some rd
  | .abs rd _    => some rd
  | .conj rd _   => some rd

/-- U14 (R22): the instruction neither reads nor writes register 0. -/
def Instr.avoidsRegZero (cfg : Config) (i : Instr) : Bool :=
  i.sources.all (· != 0) && i.dest cfg != some 0

/-- U5 and U13 together. -/
def Instr.wellFormed (cfg : Config) (i : Instr) : Bool :=
  i.shiftCountOk && i.linkOk cfg

end Sys2Proof
end

