-- ==== Sys2Proof/Decode.lean ====
section
/-! DEFINITION. The decoder of 30_encoding.md and, after it, the encoder. -/

namespace Sys2Proof

/-- Why a word spells no instruction (R66, R67). -/
inductive DecodeError where
  /-- Bits 31:27 are 00000 or 11000 to 11111: given to no instruction (R66). -/
  | illegalInstruction (w : Word)
  /-- A bit of a field the instruction does not use is 1, under `STRICT_UNUSED` (R67). -/
  | reservedEncoding (w : Word)
deriving DecidableEq, Repr

/-- OPCODE, bits 31:27 (R65). -/
def opcodeOf (w : Word) : BitVec 5 := w.extractLsb' 27 5

/-- R_SOURCE1, bits 26:22 (R69). -/
def rs1Of (w : Word) : RegNum := w.extractLsb' 22 5

/-- R_SOURCE2, bits 21:17 (R69). -/
def rs2Of (w : Word) : RegNum := w.extractLsb' 17 5

/-- R_DESTINY, bits 16:12 (R69). -/
def rdOf (w : Word) : RegNum := w.extractLsb' 12 5

/-- IMM, bits 11:0 (R68). -/
def immOf (w : Word) : Imm12 := w.extractLsb' 0 12

/-- The opcode map (R65): the opcode alone selects the instruction, the used fields give its
operands (R70, R75), and nine opcodes select none (R66). -/
def selectInstr (w : Word) : Option Instr :=
  match (opcodeOf w).toNat with
  | 1  => some (.add (rdOf w) (rs1Of w) (rs2Of w))
  | 2  => some (.addi (rdOf w) (rs1Of w) (immOf w))
  | 3  => some (.sub (rdOf w) (rs1Of w) (rs2Of w))
  | 4  => some (.mul (rdOf w) (rs1Of w) (rs2Of w))
  | 5  => some (.div (rdOf w) (rs1Of w) (rs2Of w))
  | 6  => some (.and (rdOf w) (rs1Of w) (rs2Of w))
  | 7  => some (.or (rdOf w) (rs1Of w) (rs2Of w))
  | 8  => some (.andi (rdOf w) (rs1Of w) (immOf w))
  | 9  => some (.sll (rdOf w) (rs1Of w) (immOf w))
  | 10 => some (.srl (rdOf w) (rs1Of w) (immOf w))
  | 11 => some (.lw (rdOf w) (rs1Of w) (immOf w))
  | 12 => some (.sw (rs2Of w) (rs1Of w) (immOf w))
  | 13 => some (.divc (rdOf w) (rs1Of w) (rs2Of w))
  | 14 => some (.beq (rs1Of w) (rs2Of w) (immOf w))
  | 15 => some (.blt (rs1Of w) (rs2Of w) (immOf w))
  | 16 => some (.bgt (rs1Of w) (rs2Of w) (immOf w))
  | 17 => some (.jmp (rs1Of w))
  | 18 => some (.jal (rs1Of w))
  | 19 => some (.addc (rdOf w) (rs1Of w) (rs2Of w))
  | 20 => some (.subc (rdOf w) (rs1Of w) (rs2Of w))
  | 21 => some (.mulc (rdOf w) (rs1Of w) (rs2Of w))
  | 22 => some (.abs (rdOf w) (rs1Of w))
  | 23 => some (.conj (rdOf w) (rs1Of w))
  | _  => none

/-- `strict_zero_mask` of an instruction: the bits of the fields it does not use (R75). -/
def unusedMask : Instr → Word
  | .add _ _ _  => 0x00000FFF
  | .addi _ _ _ => 0x003E0000
  | .sub _ _ _  => 0x00000FFF
  | .mul _ _ _  => 0x00000FFF
  | .div _ _ _  => 0x00000FFF
  | .and _ _ _  => 0x00000FFF
  | .or _ _ _   => 0x00000FFF
  | .andi _ _ _ => 0x003E0000
  | .sll _ _ _  => 0x003E0000
  | .srl _ _ _  => 0x003E0000
  | .lw _ _ _   => 0x003E0000
  | .sw _ _ _   => 0x0001F000
  | .divc _ _ _ => 0x00000FFF
  | .beq _ _ _  => 0x0001F000
  | .blt _ _ _  => 0x0001F000
  | .bgt _ _ _  => 0x0001F000
  | .jmp _      => 0x003FFFFF
  | .jal _      => 0x003FFFFF
  | .addc _ _ _ => 0x00000FFF
  | .subc _ _ _ => 0x00000FFF
  | .mulc _ _ _ => 0x00000FFF
  | .abs _ _    => 0x003E0FFF
  | .conj _ _   => 0x003E0FFF

/-- `decode` (R35, R65 to R67): total on words. The opcode is looked at first (R143), then, when
`STRICT_UNUSED` is true, the unused fields. -/
def decode (strict : Bool) (w : Word) : Except DecodeError Instr :=
  match selectInstr w with
  | none => .error (.illegalInstruction w)
  | some i =>
    if strict = true ∧ w &&& unusedMask i ≠ 0 then .error (.reservedEncoding w) else .ok i

/-- The host's reading of one row of the opcode table: the instruction of the 32-bit word whose bits
are `w`, bits from `nbits` up being 0, under the default `STRICT_UNUSED` = true. -/
def decodeTableWord (nbits w : Nat) : Option Instr :=
  match decode true (BitVec.ofNat 32 (w % 2 ^ nbits)) with
  | .ok i => some i
  | .error _ => none

/-- A word from its five fields (R62 to R64): the opcode in bits 31:27, the three register fields
below it, and the low 12 bits. -/
def layoutWord (op : BitVec 5) (rs1 rs2 rd : RegNum) (low : BitVec 12) : Word :=
  op ++ rs1 ++ rs2 ++ rd ++ low

/-- The one word an assembler writes for an instruction: 0 in every unused field (R67 (a)). -/
def encode : Instr → Word
  | .add rd rs1 rs2  => layoutWord 0b00001 rs1 rs2 rd 0
  | .addi rd rs1 imm => layoutWord 0b00010 rs1 0 rd imm
  | .sub rd rs1 rs2  => layoutWord 0b00011 rs1 rs2 rd 0
  | .mul rd rs1 rs2  => layoutWord 0b00100 rs1 rs2 rd 0
  | .div rd rs1 rs2  => layoutWord 0b00101 rs1 rs2 rd 0
  | .and rd rs1 rs2  => layoutWord 0b00110 rs1 rs2 rd 0
  | .or rd rs1 rs2   => layoutWord 0b00111 rs1 rs2 rd 0
  | .andi rd rs1 imm => layoutWord 0b01000 rs1 0 rd imm
  | .sll rd rs1 imm  => layoutWord 0b01001 rs1 0 rd imm
  | .srl rd rs1 imm  => layoutWord 0b01010 rs1 0 rd imm
  | .lw rd rs1 imm   => layoutWord 0b01011 rs1 0 rd imm
  | .sw rs2 rs1 imm  => layoutWord 0b01100 rs1 rs2 0 imm
  | .divc rd rs1 rs2 => layoutWord 0b01101 rs1 rs2 rd 0
  | .beq rs1 rs2 imm => layoutWord 0b01110 rs1 rs2 0 imm
  | .blt rs1 rs2 imm => layoutWord 0b01111 rs1 rs2 0 imm
  | .bgt rs1 rs2 imm => layoutWord 0b10000 rs1 rs2 0 imm
  | .jmp rs1         => layoutWord 0b10001 rs1 0 0 0
  | .jal rs1         => layoutWord 0b10010 rs1 0 0 0
  | .addc rd rs1 rs2 => layoutWord 0b10011 rs1 rs2 rd 0
  | .subc rd rs1 rs2 => layoutWord 0b10100 rs1 rs2 rd 0
  | .mulc rd rs1 rs2 => layoutWord 0b10101 rs1 rs2 rd 0
  | .abs rd rs1      => layoutWord 0b10110 rs1 0 rd 0
  | .conj rd rs1     => layoutWord 0b10111 rs1 0 rd 0

end Sys2Proof
end

