-- ==== Sys2Proof/Machine/State.lean ====
section
/-! DEFINITION. The machine's state as plain data (R34), its faults and refusals, and reset (R33,
R160). -/

namespace Sys2Proof.Machine

/-- The model faults, the complete list of R141. Each is safe: no claim can be proved of a run that
reaches one. A step that raises one changes no register, no memory word and not the pc. -/
inductive Fault where
  /-- Raised by fetch at `pc = a` when `a` is no address of the program and not `HALT_PC` (R53). Safe. -/
  | fetchOutOfRange (a : Word)
  /-- Raised by decode when bits 31:27 of the word are an unassigned opcode (R66). Safe. -/
  | illegalInstruction (w : Word)
  /-- Raised by decode, under `STRICT_UNUSED`, when an unused field of the word is not 0 (R67). Safe. -/
  | reservedEncoding (w : Word)
  /-- Raised by DIV when the divisor is 0 (R85). Safe. -/
  | divideByZero
  /-- Raised by DIVC when the divisor is 0 + 0i, under the default `DIVC_FN`; under the free setting,
  on the operands the free function chooses (R122). Safe. -/
  | complexDivideByZero
  /-- Raised by LW and SW when the effective address is `DMEM_WORDS` or more (R42). Safe. -/
  | dataAddressOutOfRange (ea : Word)
deriving DecidableEq, Repr

/-- The reasons a step is not taken that are no fault of the machine. -/
inductive Refusal where
  /-- Raised by the dispatcher's arm of an instruction that has no meaning yet; no arm raises it now. Safe. -/
  | notModelled (mnemonic : String)
  /-- Raised by `step` when pc = `HALT_PC` and no fault is marked: the run is over, the state is final and
  there is no step (R35, R162; log entry 7). Safe: nothing is said of what the hardware does there. -/
  | runOver
deriving DecidableEq, Repr

/-- Data memory as the host's cells: word `a` is the four bytes at `4a` to `4a + 3` (log entry 1).
An address that is not listed reads as `Memory.unlisted`. -/
abbrev Memory := List Host.Cell

/-- The whole state. `regs`, `pc` and `mem` are the architectural state, `faultMark` the component
R34 adds to it; `program` and `cfg` are the run's parameters (R4, R31), which stand here because the
step has no other argument (log entry 4). -/
structure State where
  /-- `x[0]` to `x[31]` (R20, R21). -/
  regs      : Vector Word 32
  /-- The program counter, in instructions (R25, R26). -/
  pc        : Word
  /-- `DMEM` (R40). -/
  mem       : Memory
  /-- The fault mark: none, or the first fault raised (R34, R141). -/
  faultMark : Option Fault
  /-- `PROGRAM`: the instruction memory, index 0 at instruction address 0 (R46, R53). -/
  program   : List Word
  /-- The parameters of R4. -/
  cfg       : Config
deriving DecidableEq, Repr

/-- What a step or an instruction answers. -/
abbrev Result := Host.Outcome State Fault Refusal

/-- The state a host launches (R33, R165): the pc at `RESET_PC`, no fault marked, and the parameters,
program, registers and data memory it supplies. -/
def State.launch (cfg : Config) (program : List Word) (regs : Vector Word 32) (mem : Memory) : State :=
  { regs := regs, pc := cfg.resetPc, mem := mem, faultMark := none, program := program, cfg := cfg }

/-- The machine right after reset (R33, R160), nothing loaded and nothing preset: the parameters at
their defaults (log entry 5), the program empty (log entry 4), every register 0 (log entry 3: the spec
leaves each arbitrary) and no data word listed (log entry 2). -/
def State.reset : State :=
  State.launch Config.default [] (Vector.replicate 32 0) []

end Sys2Proof.Machine
end

