-- ==== Sys2Proof/Machine/Ops.lean ====
section
/-! DEFINITION. The named operations over memory, registers, the program and the fault mark. -/

namespace Sys2Proof.Machine

/-- What a byte reads as at an address that memory does not list (log entry 2: the spec leaves the
launch contents of data memory arbitrary, R33). -/
def Memory.unlisted : Byte := 0

/-- The canonical form: addresses strictly rising, and no entry equal to what an unlisted address
reads as. -/
abbrev Memory.wf (m : Memory) : Prop :=
  m.Pairwise (fun c d => c.1 < d.1) ∧ ∀ c ∈ m, c.2 ≠ Memory.unlisted

/-- The byte at an address. -/
def Memory.readByte : Memory → Nat → Byte
  | [], _ => Memory.unlisted
  | (b, u) :: rest, a => if a = b then u else Memory.readByte rest a

/-- Put an entry before the first entry with a greater address. -/
def Memory.insertCell : Memory → Nat → Byte → Memory
  | [], a, v => [(a, v)]
  | (b, u) :: rest, a, v =>
    if a < b then (a, v) :: (b, u) :: rest else (b, u) :: Memory.insertCell rest a v

/-- Store a byte: whatever was listed at the address goes, and the byte is listed unless it is what
an unlisted address reads as. -/
def Memory.writeByte (m : Memory) (a : Nat) (v : Byte) : Memory :=
  let others := m.filter (fun c => decide (c.1 ≠ a))
  if v = Memory.unlisted then others else Memory.insertCell others a v

/-- The byte address of byte `k` of data word `a` in the host's cells (log entry 1). -/
def byteAddr (a : Word) (k : Nat) : Nat := 4 * a.toNat + k

/-- `DMEM[a]` as a whole word (R40, R43): byte 0 of the cell group is bits 7:0 (log entry 1). -/
def Memory.readWord (m : Memory) (a : Word) : Word :=
  m.readByte (byteAddr a 3) ++ m.readByte (byteAddr a 2) ++ m.readByte (byteAddr a 1) ++
    m.readByte (byteAddr a 0)

/-- `DMEM[a] <- v`, all 32 bits (R42, R45). -/
def Memory.writeWord (m : Memory) (a v : Word) : Memory :=
  (((m.writeByte (byteAddr a 0) (v.extractLsb' 0 8)).writeByte
      (byteAddr a 1) (v.extractLsb' 8 8)).writeByte
      (byteAddr a 2) (v.extractLsb' 16 8)).writeByte
      (byteAddr a 3) (v.extractLsb' 24 8)

/-- Whether `UNIFIED_MEMORY` makes a data address name a word of the program (R51; log entry 12). -/
def State.inProgram (s : State) (ea : Word) : Bool :=
  s.cfg.unifiedMemory && decide (ea.toNat < s.program.length)

/-- `MemRead(ea, 1)` (R42). -/
def State.dataRead (s : State) (ea : Word) : Except Fault Word :=
  if s.cfg.dmemWords ≤ ea.toNat then .error (.dataAddressOutOfRange ea)
  else if s.inProgram ea then .ok (s.program.getD ea.toNat 0)
  else .ok (s.mem.readWord ea)

/-- `MemWrite(ea, 1, v)` (R42): one word changes and no other. -/
def State.dataWrite (s : State) (ea v : Word) : Except Fault State :=
  if s.cfg.dmemWords ≤ ea.toNat then .error (.dataAddressOutOfRange ea)
  else if s.inProgram ea then .ok { s with program := s.program.set ea.toNat v }
  else .ok { s with mem := s.mem.writeWord ea v }

/-- Whether a register number is the hardwired zero register of `R0_HARDWIRED_ZERO` (R22). -/
def State.hardwired (s : State) (r : RegNum) : Bool :=
  s.cfg.r0Hardwired && r == 0

/-- `x[r]` (R6, R22). -/
def State.readReg (s : State) (r : RegNum) : Word :=
  if s.hardwired r then 0 else s.regs[r.toNat]'r.isLt

/-- `x[r] <- v` (R6, R22). -/
def State.writeReg (s : State) (r : RegNum) (v : Word) : State :=
  if s.hardwired r then s else { s with regs := s.regs.set r.toNat v r.isLt }

/-- The address of the next instruction in sequence (R26), modulo 2^32 (R27). -/
def State.nextPc (s : State) : Word := s.pc + 1

/-- `pc <- t` (R6). -/
def State.setPc (s : State) (t : Word) : State := { s with pc := t }

/-- The end of an instruction that transfers no control: `pc <- pc + 1` (R26). -/
def State.advance (s : State) : State := s.setPc s.nextPc

/-- Write the destination register, then set the pc to the next instruction (R35). -/
def State.retire (s : State) (rd : RegNum) (v : Word) : Result :=
  .next (s.writeReg rd v).advance

/-- `raise F(info)` (R6, R141): the one way a step ends in a model fault. Nothing is saved and control
goes nowhere, since the machine has no exceptions (R140, R144). -/
def raise (f : Fault) : Result := .fault f

/-- Set the fault mark if it is empty (R141). -/
def State.markFault (s : State) (f : Fault) : State :=
  match s.faultMark with
  | none => { s with faultMark := some f }
  | some _ => s

/-- `HALT_PC` (R162): the address the parameter names, or else the number of words in the program. -/
def State.haltAddr (s : State) : Nat :=
  match s.cfg.haltPc with
  | none => s.program.length
  | some h => h.toNat

/-- The test `pc = HALT_PC` that begins a step (R35). -/
def State.atHalt (s : State) : Bool := decide (s.pc.toNat = s.haltAddr)

/-- `Fetch(pc)` (R53). -/
def State.fetch (s : State) : Except Fault Word :=
  match s.program[s.pc.toNat]? with
  | some w => .ok w
  | none => .error (.fetchOutOfRange s.pc)

/-- The model fault of a word that spells no instruction (R66, R67, R141). -/
def faultOfDecode : DecodeError → Fault
  | .illegalInstruction w => .illegalInstruction w
  | .reservedEncoding w => .reservedEncoding w

/-- Fetch and decode, in that order (R35, R143). -/
def State.fetchInstr (s : State) : Except Fault Instr :=
  match s.fetch with
  | .error f => .error f
  | .ok w =>
    match decode s.cfg.strictUnused w with
    | .error e => .error (faultOfDecode e)
    | .ok i => .ok i

/-- The program with the word at an address replaced, and with words of zeros up to that address where
the program is shorter. -/
def placeWord (p : List Word) (a : Nat) (w : Word) : List Word :=
  p.take a ++ List.replicate (a - p.length) 0 ++ [w] ++ p.drop (a + 1)

/-- The parameters with `HALT_PC` at its default where it names the given address, so that a step at
that address fetches. -/
def configFetchingAt (cfg : Config) (a : Word) : Config :=
  if cfg.haltPc = some a then { cfg with haltPc := none } else cfg

end Sys2Proof.Machine
end

