-- ==== Sys2Proof/Machine/Operands.lean ====
section
/-! DEFINITION. Operand forms: immediates, shift counts, addresses, branch targets, and the halves of
a packed complex value. -/

namespace Sys2Proof.Machine

/-- `sext_12` or `zext_12` of the IMM field, as `IMM_EXT` says (R6, R68). -/
def immOperand : ImmMode → Imm12 → Word
  | .sign, imm => imm.signExtend 32
  | .zero, imm => imm.setWidth 32

/-- SLL's result (R93), for any count that IMM can hold (R95). -/
def shiftLeft : ShiftMode → Word → Imm12 → Word
  | .full, v, imm => if imm.toNat < 32 then v <<< imm.toNat else 0
  | .mod32, v, imm => v <<< (imm.toNat % 32)

/-- SRL's result (R94), for any count that IMM can hold (R95). -/
def shiftRight : ShiftMode → Word → Imm12 → Word
  | .full, v, imm => if imm.toNat < 32 then v >>> imm.toNat else 0
  | .mod32, v, imm => v >>> (imm.toNat % 32)

/-- The effective address of LW and SW: base register plus displacement, modulo 2^32 (R41, R100). -/
def State.effectiveAddress (s : State) (mode : ImmMode) (rs1 : RegNum) (imm : Imm12) : Word :=
  s.readReg rs1 + immOperand mode imm

/-- The target of a taken branch (R110), modulo 2^32 (R27). -/
def State.branchTarget (s : State) (mode : ImmMode) (imm : Imm12) : Word :=
  s.pc + 1 + immOperand mode imm

/-- The end of a conditional branch (R110). -/
def State.branch (s : State) (taken : Bool) (mode : ImmMode) (imm : Imm12) : Result :=
  .next (if taken then s.setPc (s.branchTarget mode imm) else s.advance)

/-- Bits 31:16 (R120). -/
def hiHalf (v : Word) : Half := v.extractLsb' 16 16

/-- Bits 15:0 (R120). -/
def loHalf (v : Word) : Half := v.extractLsb' 0 16

/-- `re(v)` (R120); `realHi` is `CPLX_REAL_HI`. -/
def reOf (realHi : Bool) (v : Word) : Int :=
  if realHi then (hiHalf v).toInt else (loHalf v).toInt

/-- `im(v)` (R120). -/
def imOf (realHi : Bool) (v : Word) : Int :=
  if realHi then (loHalf v).toInt else (hiHalf v).toInt

/-- `trunc16` (R6). -/
def trunc16 (n : Int) : Half := BitVec.ofInt 16 n

/-- `trunc32` (R6). -/
def trunc32 (n : Int) : Word := BitVec.ofInt 32 n

/-- The half that holds an exact part, as `CPLX_COMPONENT` says (R120). A part of -32768 to 32767 is held
as it is under every setting. -/
def componentHalf : CplxComponent → Int → Half
  | .wrap, n => trunc16 n
  | .saturate, n => trunc16 (max (-32768) (min 32767 n))
  | .free, n => if -32768 ≤ n ∧ n ≤ 32767 then trunc16 n else Config.freeComponent n

/-- `cplx(a, b)` (R120): each part put in its half. -/
def packComplex (cfg : Config) (a b : Int) : Word :=
  let re := componentHalf cfg.cplxComponent a
  let im := componentHalf cfg.cplxComponent b
  if cfg.cplxRealHi then re ++ im else im ++ re

end Sys2Proof.Machine
end

