-- ==== Sys2Proof/Machine/Complex.lean ====
section
/-! DEFINITION. 44_complex.md: DIVC, ADDC, SUBC, MULC, ABS, CONJ. -/

namespace Sys2Proof.Machine

/-- The default `DIVC_FN` (R122): the complex quotient, each part truncated toward zero; `none` where
the divisor is 0 + 0i. -/
def complexQuotient (cfg : Config) (x y : Word) : Option Word :=
  let a := reOf cfg.cplxRealHi x
  let b := imOf cfg.cplxRealHi x
  let c := reOf cfg.cplxRealHi y
  let d := imOf cfg.cplxRealHi y
  let n := c * c + d * d
  if n = 0 then none
  else some (packComplex cfg ((a * c + b * d).tdiv n) ((b * c - a * d).tdiv n))

/-- `DIVC_FN` (R122); `none` raises `ComplexDivideByZero`. -/
def divcResult (cfg : Config) (x y : Word) : Option Word :=
  match cfg.divcFn with
  | .truncQuotient => complexQuotient cfg x y
  | .free => Config.freeDivc x y

/-- DIVC (R122): no memory access (R45). -/
def execDivc (rd rs1 rs2 : RegNum) (s : State) : Result :=
  match divcResult s.cfg (s.readReg rs1) (s.readReg rs2) with
  | none => raise .complexDivideByZero
  | some v => s.retire rd v

/-- ADDC (R123): the halves are added separately, no carry between them (R121). -/
def execAddc (rd rs1 rs2 : RegNum) (s : State) : Result :=
  let hi := s.cfg.cplxRealHi
  s.retire rd (packComplex s.cfg
    (reOf hi (s.readReg rs1) + reOf hi (s.readReg rs2))
    (imOf hi (s.readReg rs1) + imOf hi (s.readReg rs2)))

/-- SUBC (R124): the halves are subtracted separately, no borrow between them (R121). -/
def execSubc (rd rs1 rs2 : RegNum) (s : State) : Result :=
  let hi := s.cfg.cplxRealHi
  s.retire rd (packComplex s.cfg
    (reOf hi (s.readReg rs1) - reOf hi (s.readReg rs2))
    (imOf hi (s.readReg rs1) - imOf hi (s.readReg rs2)))

/-- The default `MULC_FN` (R125): the exact integer product, each part put in its half. -/
def complexProduct (cfg : Config) (x y : Word) : Word :=
  let a := reOf cfg.cplxRealHi x
  let b := imOf cfg.cplxRealHi x
  let c := reOf cfg.cplxRealHi y
  let d := imOf cfg.cplxRealHi y
  packComplex cfg (a * c - b * d) (a * d + b * c)

/-- `MULC_FN` (R125). -/
def mulcResult (cfg : Config) (x y : Word) : Word :=
  match cfg.mulcFn with
  | .intProduct => complexProduct cfg x y
  | .free => Config.freeMulc x y

/-- MULC (R125). -/
def execMulc (rd rs1 rs2 : RegNum) (s : State) : Result :=
  s.retire rd (mulcResult s.cfg (s.readReg rs1) (s.readReg rs2))

/-- The greatest `r + q` with `q < 2^k` whose square is at most `n`, found from the top bit down. -/
def floorSqrtFrom (n : Nat) : Nat → Nat → Nat
  | 0, r => r
  | k + 1, r =>
    if (r + 2 ^ k) * (r + 2 ^ k) ≤ n then floorSqrtFrom n k (r + 2 ^ k) else floorSqrtFrom n k r

/-- `floor(sqrt(n))` for `n` below 2^32 (R126): sixteen bits of root. -/
def floorSqrt (n : Nat) : Nat := floorSqrtFrom n 16 0

/-- The default `ABS_FN` (R126): the modulus, rounded down, in the real half, and 0 in the other. -/
def complexModulus (cfg : Config) (x : Word) : Word :=
  let a := reOf cfg.cplxRealHi x
  let b := imOf cfg.cplxRealHi x
  packComplex cfg (floorSqrt (a * a + b * b).toNat) 0

/-- `ABS_FN` (R126). -/
def absResult (cfg : Config) (x : Word) : Word :=
  match cfg.absFn with
  | .modulus => complexModulus cfg x
  | .free => Config.freeAbs x

/-- ABS (R126). -/
def execAbs (rd rs1 : RegNum) (s : State) : Result :=
  s.retire rd (absResult s.cfg (s.readReg rs1))

/-- CONJ (R127): the real half is kept and the imaginary half negated. -/
def execConj (rd rs1 : RegNum) (s : State) : Result :=
  let hi := s.cfg.cplxRealHi
  s.retire rd (packComplex s.cfg (reOf hi (s.readReg rs1)) (-imOf hi (s.readReg rs1)))

end Sys2Proof.Machine
end

