-- ==== Sys2Proof/Machine/Flags.lean ====
section
/-! DEFINITION. The conditions the branches compute. The machine has no flags (R28): nothing else
stands here. -/

namespace Sys2Proof.Machine

/-- BEQ's condition (R111): all 32 bits are compared. -/
def condEq (a b : Word) : Bool := decide (a = b)

/-- BLT's condition (R112); `signed` is `CMP_SIGNED` (R110). -/
def condLt (signed : Bool) (a b : Word) : Bool :=
  if signed then decide (a.toInt < b.toInt) else decide (a.toNat < b.toNat)

/-- BGT's condition (R113). -/
def condGt (signed : Bool) (a b : Word) : Bool :=
  if signed then decide (a.toInt > b.toInt) else decide (a.toNat > b.toNat)

end Sys2Proof.Machine
end

