-- ==== Sys2Proof/Machine/Control.lean ====
section
/-! DEFINITION. 43_control_transfer.md: BEQ, BLT, BGT, JMP, JAL. -/

namespace Sys2Proof.Machine

/-- BEQ (R111). -/
def execBeq (rs1 rs2 : RegNum) (imm : Imm12) (s : State) : Result :=
  s.branch (condEq (s.readReg rs1) (s.readReg rs2)) s.cfg.immExt.beq imm

/-- BLT (R112). -/
def execBlt (rs1 rs2 : RegNum) (imm : Imm12) (s : State) : Result :=
  s.branch (condLt s.cfg.cmpSigned (s.readReg rs1) (s.readReg rs2)) s.cfg.immExt.blt imm

/-- BGT (R113). -/
def execBgt (rs1 rs2 : RegNum) (imm : Imm12) (s : State) : Result :=
  s.branch (condGt s.cfg.cmpSigned (s.readReg rs1) (s.readReg rs2)) s.cfg.immExt.bgt imm

/-- JMP (R114). -/
def execJmp (rs1 : RegNum) (s : State) : Result :=
  .next (s.setPc (s.readReg rs1))

/-- JAL (R115): the target is read before the link is written (log entry 9). -/
def execJal (rs1 : RegNum) (s : State) : Result :=
  .next ((s.writeReg s.cfg.raIndex s.nextPc).setPc (s.readReg rs1))

end Sys2Proof.Machine
end

