-- ==== Sys2Proof/Machine/Integer.lean ====
section
/-! DEFINITION. 40_integer_arithmetic.md: ADD, ADDI, SUB, MUL, DIV. -/

namespace Sys2Proof.Machine

/-- ADD (R81). -/
def execAdd (rd rs1 rs2 : RegNum) (s : State) : Result :=
  s.retire rd (s.readReg rs1 + s.readReg rs2)

/-- ADDI (R82). -/
def execAddi (rd rs1 : RegNum) (imm : Imm12) (s : State) : Result :=
  s.retire rd (s.readReg rs1 + immOperand s.cfg.immExt.addi imm)

/-- SUB (R83). -/
def execSub (rd rs1 rs2 : RegNum) (s : State) : Result :=
  s.retire rd (s.readReg rs1 - s.readReg rs2)

/-- MUL (R84): the low 32 bits of the product. -/
def execMul (rd rs1 rs2 : RegNum) (s : State) : Result :=
  s.retire rd (s.readReg rs1 * s.readReg rs2)

/-- `DIV_FN` (R85), applied to a divisor other than 0. `-2^31 / -1` is `trunc32(2^31)` (log entry 10). -/
def divQuotient : DivFn → Word → Word → Word
  | .truncate, a, b => trunc32 (a.toInt.tdiv b.toInt)
  | .floor, a, b => trunc32 (a.toInt.fdiv b.toInt)
  | .unsigned, a, b => BitVec.ofNat 32 (a.toNat / b.toNat)
  | .free, a, b => Config.freeDiv a b

/-- DIV (R85). -/
def execDiv (rd rs1 rs2 : RegNum) (s : State) : Result :=
  if s.readReg rs2 = 0 then raise .divideByZero
  else s.retire rd (divQuotient s.cfg.divFn (s.readReg rs1) (s.readReg rs2))

end Sys2Proof.Machine
end

