-- ==== Sys2Proof/Machine/LoadStore.lean ====
section
/-! DEFINITION. 42_load_store.md: LW, SW. -/

namespace Sys2Proof.Machine

/-- LW (R101). -/
def execLw (rd rs1 : RegNum) (imm : Imm12) (s : State) : Result :=
  match s.dataRead (s.effectiveAddress s.cfg.immExt.lw rs1 imm) with
  | .error f => raise f
  | .ok v => s.retire rd v

/-- SW (R102). -/
def execSw (rs2 rs1 : RegNum) (imm : Imm12) (s : State) : Result :=
  match s.dataWrite (s.effectiveAddress s.cfg.immExt.sw rs1 imm) (s.readReg rs2) with
  | .error f => raise f
  | .ok t => .next t.advance

end Sys2Proof.Machine
end

