-- ==== Sys2Proof/Machine/Logic.lean ====
section
/-! DEFINITION. 41_logical_shift.md: AND, OR, ANDI, SLL, SRL. -/

namespace Sys2Proof.Machine

/-- AND (R90). -/
def execAnd (rd rs1 rs2 : RegNum) (s : State) : Result :=
  s.retire rd (s.readReg rs1 &&& s.readReg rs2)

/-- OR (R91). -/
def execOr (rd rs1 rs2 : RegNum) (s : State) : Result :=
  s.retire rd (s.readReg rs1 ||| s.readReg rs2)

/-- ANDI (R92). -/
def execAndi (rd rs1 : RegNum) (imm : Imm12) (s : State) : Result :=
  s.retire rd (s.readReg rs1 &&& immOperand s.cfg.immExt.andi imm)

/-- SLL (R93, R95). -/
def execSll (rd rs1 : RegNum) (imm : Imm12) (s : State) : Result :=
  s.retire rd (shiftLeft s.cfg.shiftMode (s.readReg rs1) imm)

/-- SRL (R94, R95). -/
def execSrl (rd rs1 : RegNum) (imm : Imm12) (s : State) : Result :=
  s.retire rd (shiftRight s.cfg.shiftMode (s.readReg rs1) imm)

end Sys2Proof.Machine
end

