-- ==== Sys2Proof/Machine/Dispatch.lean ====
section
/-! DEFINITION. One arm per instruction: each calls its meaning. -/

namespace Sys2Proof.Machine

def exec (i : Instr) (s : State) : Host.Outcome State Fault Refusal :=
  match i with
  | .add rd rs1 rs2 => Sys2Proof.Machine.execAdd rd rs1 rs2 s
  | .addi rd rs1 imm => Sys2Proof.Machine.execAddi rd rs1 imm s
  | .sub rd rs1 rs2 => Sys2Proof.Machine.execSub rd rs1 rs2 s
  | .mul rd rs1 rs2 => Sys2Proof.Machine.execMul rd rs1 rs2 s
  | .div rd rs1 rs2 => Sys2Proof.Machine.execDiv rd rs1 rs2 s
  | .and rd rs1 rs2 => Sys2Proof.Machine.execAnd rd rs1 rs2 s
  | .or rd rs1 rs2 => Sys2Proof.Machine.execOr rd rs1 rs2 s
  | .andi rd rs1 imm => Sys2Proof.Machine.execAndi rd rs1 imm s
  | .sll rd rs1 imm => Sys2Proof.Machine.execSll rd rs1 imm s
  | .srl rd rs1 imm => Sys2Proof.Machine.execSrl rd rs1 imm s
  | .lw rd rs1 imm => Sys2Proof.Machine.execLw rd rs1 imm s
  | .sw rs2 rs1 imm => Sys2Proof.Machine.execSw rs2 rs1 imm s
  | .divc rd rs1 rs2 => Sys2Proof.Machine.execDivc rd rs1 rs2 s
  | .beq rs1 rs2 imm => Sys2Proof.Machine.execBeq rs1 rs2 imm s
  | .blt rs1 rs2 imm => Sys2Proof.Machine.execBlt rs1 rs2 imm s
  | .bgt rs1 rs2 imm => Sys2Proof.Machine.execBgt rs1 rs2 imm s
  | .jmp rs1 => Sys2Proof.Machine.execJmp rs1 s
  | .jal rs1 => Sys2Proof.Machine.execJal rs1 s
  | .addc rd rs1 rs2 => Sys2Proof.Machine.execAddc rd rs1 rs2 s
  | .subc rd rs1 rs2 => Sys2Proof.Machine.execSubc rd rs1 rs2 s
  | .mulc rd rs1 rs2 => Sys2Proof.Machine.execMulc rd rs1 rs2 s
  | .abs rd rs1 => Sys2Proof.Machine.execAbs rd rs1 s
  | .conj rd rs1 => Sys2Proof.Machine.execConj rd rs1 s

end Sys2Proof.Machine
end

