-- ==== Sys2Proof/Machine/Step.lean ====
section
/-! DEFINITION. The instruction cycle (R35), and the host's way to place one instruction. -/

namespace Sys2Proof.Machine

/-- One step (R35, R143). A marked state takes none: it answers the fault it is marked with (R141).
At `HALT_PC` the run is over and there is none (R162). Otherwise fetch, decode, execute. -/
def step (s : State) : Host.Outcome State Fault Refusal :=
  match s.faultMark with
  | some f => raise f
  | none =>
    if s.atHalt then .refused .runOver
    else
      match s.fetchInstr with
      | .error f => raise f
      | .ok i => exec i s

/-- `s` with the word `w` (its bits from `nbits` up being 0) in instruction memory at the pc, no fault
marked, and `HALT_PC` at its default if it named the pc: what it takes for the next step to fetch and
run that word (log entry 4). -/
def State.withFetchWord (s : State) (nbits w : Nat) : State :=
  { s with
    program := placeWord s.program s.pc.toNat (BitVec.ofNat 32 (w % 2 ^ nbits))
    faultMark := none
    cfg := configFetchingAt s.cfg s.pc }

end Sys2Proof.Machine
end

