-- ==== Sys2Proof/Machine/Assembler.lean ====
section
/-! DEFINITION. The assembler's notation (R71) and its branch labels (R72). The machine's step uses
neither. -/

namespace Sys2Proof.Machine

/-- A register operand: `$` and the number (R71). -/
def regText (r : RegNum) : String := "$" ++ Nat.repr r.toNat

/-- An immediate in decimal, as the integer that its widening gives it (R68, R71). -/
def immText : ImmMode → Imm12 → String
  | .sign, imm =>
    if imm.toInt < 0 then "-" ++ Nat.repr imm.toInt.natAbs else Nat.repr imm.toInt.natAbs
  | .zero, imm => Nat.repr imm.toNat

/-- A mnemonic and its operands, separated as the source's lines are (R71). -/
def lineText (mnemonic : String) (operands : List String) : String :=
  mnemonic ++ " " ++ String.intercalate ", " operands

/-- The assembler line of an instruction (R70, R71). -/
def asmText (ext : ImmExt) : Instr → String
  | .add rd rs1 rs2  => lineText "add" [regText rd, regText rs1, regText rs2]
  | .addi rd rs1 imm => lineText "addi" [regText rd, regText rs1, immText ext.addi imm]
  | .sub rd rs1 rs2  => lineText "sub" [regText rd, regText rs1, regText rs2]
  | .mul rd rs1 rs2  => lineText "mul" [regText rd, regText rs1, regText rs2]
  | .div rd rs1 rs2  => lineText "div" [regText rd, regText rs1, regText rs2]
  | .and rd rs1 rs2  => lineText "and" [regText rd, regText rs1, regText rs2]
  | .or rd rs1 rs2   => lineText "or" [regText rd, regText rs1, regText rs2]
  | .andi rd rs1 imm => lineText "andi" [regText rd, regText rs1, immText ext.andi imm]
  | .sll rd rs1 imm  => lineText "sll" [regText rd, regText rs1, immText .zero imm]
  | .srl rd rs1 imm  => lineText "srl" [regText rd, regText rs1, immText .zero imm]
  | .lw rd rs1 imm   => lineText "lw" [regText rd, regText rs1, immText ext.lw imm]
  | .sw rs2 rs1 imm  => lineText "sw" [regText rs2, regText rs1, immText ext.sw imm]
  | .divc rd rs1 rs2 => lineText "divc" [regText rd, regText rs1, regText rs2]
  | .beq rs1 rs2 imm => lineText "beq" [regText rs1, regText rs2, immText ext.beq imm]
  | .blt rs1 rs2 imm => lineText "blt" [regText rs1, regText rs2, immText ext.blt imm]
  | .bgt rs1 rs2 imm => lineText "bgt" [regText rs1, regText rs2, immText ext.bgt imm]
  | .jmp rs1         => lineText "jmp" [regText rs1]
  | .jal rs1         => lineText "jal" [regText rs1]
  | .addc rd rs1 rs2 => lineText "addc" [regText rd, regText rs1, regText rs2]
  | .subc rd rs1 rs2 => lineText "subc" [regText rd, regText rs1, regText rs2]
  | .mulc rd rs1 rs2 => lineText "mulc" [regText rd, regText rs1, regText rs2]
  | .abs rd rs1      => lineText "abs" [regText rd, regText rs1]
  | .conj rd rs1     => lineText "conj" [regText rd, regText rs1]

/-- The IMM an assembler stores for a branch at address `a` to the label of address `l` (R72):
`l - (a + 1)`, or none where that is outside -2048 to 2047. The difference is read as a 32-bit signed
number (log entry 16). -/
def branchOffset (l a : Word) : Option Imm12 :=
  let d := (l - (a + 1)).toInt
  if -2048 ≤ d ∧ d ≤ 2047 then some (BitVec.ofInt 12 d) else none

end Sys2Proof.Machine
end

