-- ==== Sys2Proof/Safety.lean ====
section
/-! DEFINITION. What claims are stated in: the invariant, the end of a run, the marked state a fault
leaves, and the frames of the instructions. -/

namespace Sys2Proof.Machine

/-- What every reachable state satisfies: data memory is in its canonical form and lists no address
outside `DMEM_WORDS`, which is at most 2^32 (R40), and a hardwired register 0 holds 0 (R22, R33). -/
abbrev State.Inv (s : State) : Prop :=
  s.mem.wf ∧ (∀ c ∈ s.mem, c.1 < 4 * s.cfg.dmemWords) ∧ s.cfg.dmemWords ≤ 2 ^ 32 ∧
    (s.cfg.r0Hardwired = true → s.regs[0] = 0)

/-- A final state (R162): at `HALT_PC`, and no fault is marked. -/
def State.final (s : State) : Bool := s.faultMark.isNone && s.atHalt

/-- The state after a step, a fault's mark included (R141): the next state, or the same state marked
with the fault, or the same state where there is no step. -/
def State.settle (s : State) : State :=
  match step s with
  | .next t => t
  | .fault f => s.markFault f
  | .refused _ => s

end Sys2Proof.Machine

namespace Sys2Proof.Safety

open Sys2Proof.Machine

/-- Every byte of data memory reads as before. -/
def SameMemory (s t : State) : Prop := ∀ a : Nat, t.mem.readByte a = s.mem.readByte a

/-- Every register reads as before. -/
def SameRegs (s t : State) : Prop := ∀ r : RegNum, t.readReg r = s.readReg r

/-- The program, the parameters and the fault mark are as before. -/
def SameRun (s t : State) : Prop :=
  t.program = s.program ∧ t.cfg = s.cfg ∧ t.faultMark = s.faultMark

/-- `x[rd] <- v` and no other register changes (R6); under `R0_HARDWIRED_ZERO` a write to register 0
is discarded and it reads 0 (R22). -/
def RegWritten (s t : State) (rd : RegNum) (v : Word) : Prop :=
  t.readReg rd = (if s.cfg.r0Hardwired = true ∧ rd = 0 then 0 else v) ∧
    ∀ r : RegNum, r ≠ rd → t.readReg r = s.readReg r

/-- The instruction completes: it writes `v` to register `rd`, the pc goes to the next instruction,
and nothing else changes. -/
def WritesResult (i : Instr) (s : State) (rd : RegNum) (v : Word) : Prop :=
  ∃ t, exec i s = .next t ∧ RegWritten s t rd v ∧ t.pc = s.pc + 1 ∧ SameMemory s t ∧ SameRun s t

/-- The instruction completes: the pc goes to `target` and nothing else changes. -/
def GoesTo (i : Instr) (s : State) (target : Word) : Prop :=
  ∃ t, exec i s = .next t ∧ t.pc = target ∧ SameRegs s t ∧ SameMemory s t ∧ SameRun s t

/-- A field of a word: a register number at bit `lo`. -/
def regAt (r : RegNum) (lo : Nat) : Word := r.setWidth 32 <<< lo

/-- The word is the instruction's only encoding in the spec's sense (R67 (a)): the assembler writes it,
and the strict decoder and the lenient one read the instruction from it. -/
def EncodedBy (i : Instr) (w : Word) : Prop :=
  encode i = w ∧ decode true w = .ok i ∧ decode false w = .ok i

/-- The integer that IMM stands for (R68). -/
def immInteger : ImmMode → Imm12 → Int
  | .sign, imm => imm.toInt
  | .zero, imm => imm.toNat

/-- The IMM operand of an instruction that widens it by `IMM_EXT` (R68). -/
def widenedImm : Instr → Option Imm12
  | .addi _ _ imm => some imm
  | .andi _ _ imm => some imm
  | .lw _ _ imm => some imm
  | .sw _ _ imm => some imm
  | .beq _ _ imm => some imm
  | .blt _ _ imm => some imm
  | .bgt _ _ imm => some imm
  | _ => none

/-- The opcode map of R65, in the order of its table: the number of each instruction's opcode. -/
def opcodeNumber : Instr → Nat
  | .add _ _ _  => 1
  | .addi _ _ _ => 2
  | .sub _ _ _  => 3
  | .mul _ _ _  => 4
  | .div _ _ _  => 5
  | .and _ _ _  => 6
  | .or _ _ _   => 7
  | .andi _ _ _ => 8
  | .sll _ _ _  => 9
  | .srl _ _ _  => 10
  | .lw _ _ _   => 11
  | .sw _ _ _   => 12
  | .divc _ _ _ => 13
  | .beq _ _ _  => 14
  | .blt _ _ _  => 15
  | .bgt _ _ _  => 16
  | .jmp _      => 17
  | .jal _      => 18
  | .addc _ _ _ => 19
  | .subc _ _ _ => 20
  | .mulc _ _ _ => 21
  | .abs _ _    => 22
  | .conj _ _   => 23

/-- `strict_zero_mask` by opcode number (the table of R75). -/
def strictZeroMask (op : Nat) : Word :=
  if op ∈ [1, 3, 4, 5, 6, 7, 13, 19, 20, 21] then 0x00000FFF
  else if op ∈ [2, 8, 9, 10, 11] then 0x003E0000
  else if op ∈ [12, 14, 15, 16] then 0x0001F000
  else if op ∈ [17, 18] then 0x003FFFFF
  else 0x003E0FFF

/-- The register numbers of an instruction in R_SOURCE1, R_SOURCE2 and R_DESTINY, by the columns of R75's
table; none where the column has "-". -/
def registerFields : Instr → Option RegNum × Option RegNum × Option RegNum
  | .add rd rs1 rs2  => (some rs1, some rs2, some rd)
  | .addi rd rs1 _   => (some rs1, none, some rd)
  | .sub rd rs1 rs2  => (some rs1, some rs2, some rd)
  | .mul rd rs1 rs2  => (some rs1, some rs2, some rd)
  | .div rd rs1 rs2  => (some rs1, some rs2, some rd)
  | .and rd rs1 rs2  => (some rs1, some rs2, some rd)
  | .or rd rs1 rs2   => (some rs1, some rs2, some rd)
  | .andi rd rs1 _   => (some rs1, none, some rd)
  | .sll rd rs1 _    => (some rs1, none, some rd)
  | .srl rd rs1 _    => (some rs1, none, some rd)
  | .lw rd rs1 _     => (some rs1, none, some rd)
  | .sw rs2 rs1 _    => (some rs1, some rs2, none)
  | .divc rd rs1 rs2 => (some rs1, some rs2, some rd)
  | .beq rs1 rs2 _   => (some rs1, some rs2, none)
  | .blt rs1 rs2 _   => (some rs1, some rs2, none)
  | .bgt rs1 rs2 _   => (some rs1, some rs2, none)
  | .jmp rs1         => (some rs1, none, none)
  | .jal rs1         => (some rs1, none, none)
  | .addc rd rs1 rs2 => (some rs1, some rs2, some rd)
  | .subc rd rs1 rs2 => (some rs1, some rs2, some rd)
  | .mulc rd rs1 rs2 => (some rs1, some rs2, some rd)
  | .abs rd rs1      => (some rs1, none, some rd)
  | .conj rd rs1     => (some rs1, none, some rd)

/-- A part that a half holds as it is: a signed 16-bit number (R120). -/
abbrev FitsHalf (n : Int) : Prop := -32768 ≤ n ∧ n ≤ 32767

/-- What a half reads as, signed, after an exact part is put in it under `CPLX_COMPONENT` (R120; the settings
beside the default are log entry 22). -/
def componentValue : CplxComponent → Int → Int
  | .wrap, n => n.bmod 65536
  | .saturate, n => if n < -32768 then -32768 else if 32767 < n then 32767 else n
  | .free, n => if FitsHalf n then n else (Config.freeComponent n).toInt

/-- The exact parts that an instruction puts in halves (R122 to R127 under the default functions); none where
it puts no part in a half, or another function gives its whole word. -/
def exactParts (s : State) (i : Instr) : List Int :=
  let re := fun r => reOf s.cfg.cplxRealHi (s.readReg r)
  let im := fun r => imOf s.cfg.cplxRealHi (s.readReg r)
  match i with
  | .addc _ p q => [re p + re q, im p + im q]
  | .subc _ p q => [re p - re q, im p - im q]
  | .mulc _ p q =>
    if s.cfg.mulcFn = .intProduct then [re p * re q - im p * im q, re p * im q + im p * re q] else []
  | .divc _ p q =>
    if s.cfg.divcFn = .truncQuotient then
      let n := re q * re q + im q * im q
      [(re p * re q + im p * im q).tdiv n, (im p * re q - re p * im q).tdiv n]
    else []
  | .abs _ p =>
    if s.cfg.absFn = .modulus then [((re p * re p + im p * im p).toNat.sqrt : Int)] else []
  | .conj _ p => [re p, -im p]
  | _ => []

/-- The same state under other parameters. -/
def withConfig (s : State) (cfg : Config) : State := { s with cfg := cfg }

/-- The same outcome, but for the parameters of its next state. -/
def outcomeWithConfig (cfg : Config) : Result → Result
  | .next t => .next (withConfig t cfg)
  | .fault f => .fault f
  | .refused r => .refused r

/-- Two outcomes that software cannot tell apart after an instruction that writes at most the register
`dest`: the same fault, or next states that agree on the pc, the memory, the program and `dest`. -/
def AgreeOn (dest : Option RegNum) : Result → Result → Prop
  | .next t, .next t' =>
    t.pc = t'.pc ∧ t.mem = t'.mem ∧ t.program = t'.program ∧
      ∀ rd, dest = some rd → t.readReg rd = t'.readReg rd
  | .fault f, .fault f' => f = f'
  | .refused r, .refused r' => r = r'
  | _, _ => False

/-- The execute-stage fault of an instruction (the last three rows of R141's table, R143). -/
def ExecuteFault (i : Instr) (s : State) (f : Fault) : Prop :=
  (∃ rd rs1 rs2, i = .div rd rs1 rs2 ∧ s.readReg rs2 = 0 ∧ f = .divideByZero) ∨
  (∃ rd rs1 rs2, i = .divc rd rs1 rs2 ∧ f = .complexDivideByZero ∧
    ((s.cfg.divcFn = .truncQuotient ∧ s.readReg rs2 = 0) ∨
     (s.cfg.divcFn = .free ∧ Config.freeDivc (s.readReg rs1) (s.readReg rs2) = none))) ∨
  (∃ rd rs1 imm, i = .lw rd rs1 imm ∧
    s.cfg.dmemWords ≤ (s.effectiveAddress s.cfg.immExt.lw rs1 imm).toNat ∧
    f = .dataAddressOutOfRange (s.effectiveAddress s.cfg.immExt.lw rs1 imm)) ∨
  (∃ rs2 rs1 imm, i = .sw rs2 rs1 imm ∧
    s.cfg.dmemWords ≤ (s.effectiveAddress s.cfg.immExt.sw rs1 imm).toNat ∧
    f = .dataAddressOutOfRange (s.effectiveAddress s.cfg.immExt.sw rs1 imm))

end Sys2Proof.Safety
end

