-- ==== Sys2Proof/Certificates/Slice0/Obligations.lean ====
section
/-! DEFINITION. The statements for the provers, each with the rule of spec/ it formalises. Where a
clause rests on a decision of 92_eei_decisions.md (D<n>), which is the spec's own choice and not its
source's word, or on a log entry of notes/assumptions, the docstring names it. -/

open Sys2Proof Sys2Proof.Machine Sys2Proof.Safety

/-! ## Encoding -/

/-- R76: the worked encodings and the worked decoding. -/
def Obligations.WorkedEncodings : Prop :=
  EncodedBy (.add 3 1 2) 0x08443000 ∧ EncodedBy (.addi 2 1 (-1)) 0x10402FFF ∧
  EncodedBy (.sw 2 1 4) 0x60440004 ∧ EncodedBy (.conj 3 1) 0xB8403000

/-- R62 to R65, R67, R69, R70, R75: every instruction, with every operand at every value its field
admits, decodes from the word the assembler writes for it, under both settings of `STRICT_UNUSED`
(D6 writes 0 in unused fields). -/
def Obligations.DecodeEncodeRoundTrip : Prop :=
  ∀ (strict : Bool) (i : Instr), decode strict (encode i) = .ok i

/-- R67 (a) and (b), D6: a word that the strict decoder accepts is the one encoding of what it reads. -/
def Obligations.StrictDecodeReadsOnlyEncodings : Prop :=
  ∀ (w : Word) (i : Instr), decode true w = .ok i → encode i = w

/-- R67 (c), D6: with `STRICT_UNUSED` = false the unused bits are ignored and no other bit is. -/
def Obligations.LenientDecodeIgnoresUnusedBits : Prop :=
  ∀ (w : Word) (i : Instr), decode false w = .ok i ↔ w &&& ~~~unusedMask i = encode i

/-- R65: bits 31:27 of a word alone select the instruction. A word that decodes does so to the instruction
that the opcode map gives its bits 31:27, whatever its other bits; and every word with an opcode of the
map, 00001 to 10111, selects one. -/
def Obligations.OpcodeSelectsInstruction : Prop :=
  ∀ w : Word,
    (∀ (strict : Bool) (i : Instr), decode strict w = .ok i → opcodeNumber i = w.toNat / 2 ^ 27) ∧
    (1 ≤ w.toNat / 2 ^ 27 → w.toNat / 2 ^ 27 ≤ 23 →
      ∃ i, decode false w = .ok i ∧ opcodeNumber i = w.toNat / 2 ^ 27)

/-- R66, D18: exactly the words with opcode 00000 or 11000 to 11111 are illegal. -/
def Obligations.IllegalOpcodesExactly : Prop :=
  ∀ (strict : Bool) (w : Word),
    decode strict w = .error (.illegalInstruction w) ↔
      w.toNat / 2 ^ 27 = 0 ∨ 24 ≤ w.toNat / 2 ^ 27

/-- R67 (b), R75, D6: exactly the words with an assigned opcode and a 1 in its `strict_zero_mask` are
reserved, and only under `STRICT_UNUSED`; what an error records is the word itself (R141). -/
def Obligations.ReservedEncodingsExactly : Prop :=
  ∀ (strict : Bool) (w : Word),
    (decode strict w = .error (.reservedEncoding w) ↔
      strict = true ∧ 1 ≤ w.toNat / 2 ^ 27 ∧ w.toNat / 2 ^ 27 ≤ 23 ∧
        w &&& strictZeroMask (w.toNat / 2 ^ 27) ≠ 0) ∧
    ∀ e, decode strict w = .error e → e = .illegalInstruction w ∨ e = .reservedEncoding w

/-! ## The step, the end of a run, faults, reset -/

/-- R35: from an unmarked state that is not at `HALT_PC`, a step whose program word decodes to an
instruction is that instruction's meaning at that state, with nothing around it. -/
def Obligations.StepRunsDecodedInstruction : Prop :=
  ∀ (s : State) (w : Word) (i : Instr),
    s.faultMark = none → s.pc.toNat ≠ s.haltAddr → s.program[s.pc.toNat]? = some w →
    decode s.cfg.strictUnused w = .ok i → step s = exec i s

/-- R35, and log entry 4: a word placed for the next fetch is what the next step runs. -/
def Obligations.PlacedWordIsFetchedNext : Prop :=
  ∀ (s : State) (nbits w : Nat) (i : Instr),
    decode s.cfg.strictUnused (BitVec.ofNat 32 (w % 2 ^ nbits)) = .ok i →
    step (s.withFetchWord nbits w) = exec i (s.withFetchWord nbits w)

/-- R162, D20: with no fault marked the run is over exactly at `HALT_PC`, which is the number of words of
the program unless the parameter names an address; a step there is no step (the model's answer for
that is log entry 7; the comparison on natural numbers is log entry 17), and no other step is refused: every
instruction has a meaning. -/
def Obligations.RunEndsExactlyAtHaltPc : Prop :=
  ∀ s : State,
    (step s = .refused .runOver ↔
      s.faultMark = none ∧
        ((s.cfg.haltPc = none ∧ s.pc.toNat = s.program.length) ∨ s.cfg.haltPc = some s.pc)) ∧
    ∀ r, step s = .refused r → r = .runOver

/-- R141, R143, R53, R66, R67 (D18): a step answers a fault exactly when the state is marked with it, or the
state is unmarked and not at `HALT_PC` and the first of fetch, opcode, unused fields and execution
that faults raises it. That a marked state answers its mark is log entry 6; the fault of DIVC under the free
`DIVC_FN` is log entry 11. -/
def Obligations.StepFaultsExactly : Prop :=
  ∀ (s : State) (f : Fault),
    step s = .fault f ↔
      s.faultMark = some f ∨
      (s.faultMark = none ∧ s.pc.toNat ≠ s.haltAddr ∧
        ((s.program.length ≤ s.pc.toNat ∧ f = .fetchOutOfRange s.pc) ∨
         ∃ w, s.program[s.pc.toNat]? = some w ∧
          ((decode s.cfg.strictUnused w = .error (.illegalInstruction w) ∧ f = .illegalInstruction w) ∨
           (decode s.cfg.strictUnused w = .error (.reservedEncoding w) ∧ f = .reservedEncoding w) ∨
           ∃ i, decode s.cfg.strictUnused w = .ok i ∧ ExecuteFault i s f)))

/-- R141, R144 (D18), log entry 6: a step that raises a fault leaves registers, pc and memory as they
were, marks the state with the fault, and the marked state takes no further step. -/
def Obligations.FaultsArePreciseAndFinal : Prop :=
  ∀ (s : State) (f : Fault), step s = .fault f →
    s.settle.regs = s.regs ∧ s.settle.pc = s.pc ∧ s.settle.mem = s.mem ∧
    s.settle.program = s.program ∧ s.settle.cfg = s.cfg ∧ s.settle.faultMark = some f ∧
    step s.settle = .fault f ∧ s.settle.settle = s.settle ∧ s.settle.final = false

/-- R33, R160 (D19): at reset and at any launch the pc is `RESET_PC` (0 by default) and no fault is
marked. That `State.reset` has every parameter at the default of R4 is the model's choice (log entry 5: the
spec makes them a run's arguments), and so is that every data byte then reads 0, every register 0, and
that the program is empty (log entries 2, 3, 4), which the spec leaves arbitrary or to the host. -/
def Obligations.ResetLeavesMachineReady : Prop :=
  State.reset.pc = 0 ∧ State.reset.faultMark = none ∧ State.reset.cfg = Config.default ∧
  (∀ r, State.reset.readReg r = 0) ∧ (∀ a, State.reset.mem.readByte a = 0) ∧
  State.reset.program = [] ∧
  ∀ cfg program regs mem,
    (State.launch cfg program regs mem).pc = cfg.resetPc ∧
    (State.launch cfg program regs mem).faultMark = none

/-- The invariant holds at reset (R40, R22; log entries 1 and 21). -/
def Obligations.ResetMeetsInvariant : Prop := State.reset.Inv

/-- The invariant is kept by every step from every state that meets it (R22, R40, R42; log entries 1
and 21): memory stays in canonical form and inside `DMEM_WORDS`, and a hardwired register 0 holds 0. -/
def Obligations.StepKeepsInvariant : Prop :=
  ∀ s t : State, s.Inv → step s = .next t → t.Inv

/-- Canonical memories are equal data when every byte reads the same (log entry 1). -/
def Obligations.CanonicalMemoryIsItsBytes : Prop :=
  ∀ m m' : Memory, m.wf → m'.wf → (∀ a, m.readByte a = m'.readByte a) → m = m'

/-! ## Whole-machine rules -/

/-- R51, R31 (D16): no step changes the parameters, the fault mark, the length of the program or, with
`UNIFIED_MEMORY` = false, any word of the program (what the other setting does is log entry 12). -/
def Obligations.StepKeepsProgram : Prop :=
  ∀ s t : State, step s = .next t →
    t.cfg = s.cfg ∧ t.faultMark = s.faultMark ∧ t.program.length = s.program.length ∧
    (s.cfg.unifiedMemory = false → t.program = s.program)

/-- R45 (D14): no instruction but SW changes data memory, the program, or any byte. -/
def Obligations.OnlyStoreChangesMemory : Prop :=
  ∀ (i : Instr) (s t : State), exec i s = .next t →
    (∀ rs2 rs1 imm, i ≠ .sw rs2 rs1 imm) → t.mem = s.mem ∧ SameMemory s t ∧ t.program = s.program

/-- R26, R25 and the table after R27: every instruction but the five control transfers ends at pc + 1, the
branches at pc + 1 or at their target, and JMP and JAL at the register they read. -/
def Obligations.OnlyControlTransfersMovePcElsewhere : Prop :=
  ∀ (i : Instr) (s t : State), exec i s = .next t →
    t.pc = s.pc + 1 ∨
    (∃ rs1 rs2 imm, i = .beq rs1 rs2 imm ∧ t.pc = s.branchTarget s.cfg.immExt.beq imm) ∨
    (∃ rs1 rs2 imm, i = .blt rs1 rs2 imm ∧ t.pc = s.branchTarget s.cfg.immExt.blt imm) ∨
    (∃ rs1 rs2 imm, i = .bgt rs1 rs2 imm ∧ t.pc = s.branchTarget s.cfg.immExt.bgt imm) ∨
    (∃ rs1, (i = .jmp rs1 ∨ i = .jal rs1) ∧ t.pc = s.readReg rs1)

/-- R24, column Writes: a register that reads otherwise after an instruction is the one the table
says the instruction writes, so every instruction leaves every other register alone. -/
def Obligations.OnlyDestinationRegisterChanges : Prop :=
  ∀ (i : Instr) (s t : State), exec i s = .next t →
    ∀ r, i.dest s.cfg ≠ some r → t.readReg r = s.readReg r

/-- R24, column Reads: what an instruction does depends, among the registers, on those the table says
it reads and on no other. -/
def Obligations.OutcomeDependsOnSourcesOnly : Prop :=
  ∀ (i : Instr) (s s' : State),
    s.pc = s'.pc → s.mem = s'.mem → s.program = s'.program → s.cfg = s'.cfg →
    (∀ r ∈ i.sources, s.readReg r = s'.readReg r) →
    AgreeOn (i.dest s.cfg) (exec i s) (exec i s')

/-! ## Integer arithmetic -/

/-- R81 (wrap-around is D8, operand placement D5): ADD, its encoding and its result; nothing else
changes. -/
def Obligations.AddResult : Prop :=
  ∀ (s : State) (rd rs1 rs2 : RegNum),
    EncodedBy (.add rd rs1 rs2) (0x08000000 ||| regAt rs1 22 ||| regAt rs2 17 ||| regAt rd 12) ∧
    WritesResult (.add rd rs1 rs2) s rd
      (BitVec.ofNat 32 ((s.readReg rs1).toNat + (s.readReg rs2).toNat))

/-- R82 (sign extension is D7, wrap-around D8; the other setting of `IMM_EXT` is log entry 13): ADDI. -/
def Obligations.AddiResult : Prop :=
  ∀ (s : State) (rd rs1 : RegNum) (imm : Imm12),
    EncodedBy (.addi rd rs1 imm) (0x10000000 ||| regAt rs1 22 ||| regAt rd 12 ||| imm.setWidth 32) ∧
    WritesResult (.addi rd rs1 imm) s rd
      (BitVec.ofInt 32 ((s.readReg rs1).toInt + immInteger s.cfg.immExt.addi imm))

/-- R83, R86 (wrap-around is D8, log entry 20): SUB. -/
def Obligations.SubResult : Prop :=
  ∀ (s : State) (rd rs1 rs2 : RegNum),
    EncodedBy (.sub rd rs1 rs2) (0x18000000 ||| regAt rs1 22 ||| regAt rs2 17 ||| regAt rd 12) ∧
    WritesResult (.sub rd rs1 rs2) s rd
      (BitVec.ofInt 32 ((s.readReg rs1).toInt - (s.readReg rs2).toInt))

/-- R84 (the low half of the product is D9): MUL. -/
def Obligations.MulResult : Prop :=
  ∀ (s : State) (rd rs1 rs2 : RegNum),
    EncodedBy (.mul rd rs1 rs2) (0x20000000 ||| regAt rs1 22 ||| regAt rs2 17 ||| regAt rd 12) ∧
    WritesResult (.mul rd rs1 rs2) s rd
      (BitVec.ofNat 32 ((s.readReg rs1).toNat * (s.readReg rs2).toNat))

/-- R85, R86 (D10): DIV by a divisor other than 0. Under the default `DIV_FN` the quotient has the magnitude
`floor(|a| / |b|)` and the sign of R86's table, truncated to 32 bits (log entry 10); the other settings
are log entries 11 and 18. -/
def Obligations.DivResult : Prop :=
  ∀ (s : State) (rd rs1 rs2 : RegNum),
    EncodedBy (.div rd rs1 rs2) (0x28000000 ||| regAt rs1 22 ||| regAt rs2 17 ||| regAt rd 12) ∧
    (s.readReg rs2 ≠ 0 →
      WritesResult (.div rd rs1 rs2) s rd
        (match s.cfg.divFn with
         | .truncate =>
           let q : Int := ((s.readReg rs1).toInt.natAbs / (s.readReg rs2).toInt.natAbs : Nat)
           BitVec.ofInt 32
             (if (s.readReg rs1).toInt < 0 ↔ (s.readReg rs2).toInt < 0 then q else -q)
         | .floor => BitVec.ofInt 32 ((s.readReg rs1).toInt.fdiv (s.readReg rs2).toInt)
         | .unsigned => BitVec.ofNat 32 ((s.readReg rs1).toNat / (s.readReg rs2).toNat)
         | .free => Config.freeDiv (s.readReg rs1) (s.readReg rs2)))

/-- R85, U3 (D10) and R122, U10 (D26): where DIV and, under the default `DIVC_FN`, DIVC raise their
fault instead of a result. -/
def Obligations.ZeroDivisorsFault : Prop :=
  ∀ (s : State) (rd rs1 rs2 : RegNum), s.readReg rs2 = 0 →
    exec (.div rd rs1 rs2) s = .fault .divideByZero ∧
    (s.cfg.divcFn = .truncQuotient → exec (.divc rd rs1 rs2) s = .fault .complexDivideByZero)

/-- R86 (D8): ADD, SUB and MUL are neither signed nor unsigned: the truncated result of the signed
readings is that of the unsigned ones, and both are what the instruction writes. -/
def Obligations.ArithmeticIgnoresSignedness : Prop :=
  ∀ (s : State) (rd rs1 rs2 : RegNum),
    let a := s.readReg rs1
    let b := s.readReg rs2
    (BitVec.ofInt 32 (a.toInt + b.toInt) = BitVec.ofInt 32 ((a.toNat : Int) + b.toNat) ∧
      exec (.add rd rs1 rs2) s = s.retire rd (BitVec.ofInt 32 (a.toInt + b.toInt))) ∧
    (BitVec.ofInt 32 (a.toInt - b.toInt) = BitVec.ofInt 32 ((a.toNat : Int) - b.toNat) ∧
      exec (.sub rd rs1 rs2) s = s.retire rd (BitVec.ofInt 32 (a.toInt - b.toInt))) ∧
    (BitVec.ofInt 32 (a.toInt * b.toInt) = BitVec.ofInt 32 ((a.toNat : Int) * b.toNat) ∧
      exec (.mul rd rs1 rs2) s = s.retire rd (BitVec.ofInt 32 (a.toInt * b.toInt)))

/-- R85: for non-negative operands below 2^31 the signed and unsigned, truncating and flooring
readings of `DIV_FN` give one quotient, `floor(a / b)`. -/
def Obligations.DivReadingsAgreeOnNonNegatives : Prop :=
  ∀ (s : State) (rd rs1 rs2 : RegNum),
    (s.readReg rs1).toNat < 2 ^ 31 → (s.readReg rs2).toNat < 2 ^ 31 → s.readReg rs2 ≠ 0 →
    s.cfg.divFn ≠ .free →
    WritesResult (.div rd rs1 rs2) s rd
      (BitVec.ofNat 32 ((s.readReg rs1).toNat / (s.readReg rs2).toNat))

/-! ## Logic and shifts -/

/-- R90, R91: AND and OR, their encodings, and their results bit by bit; nothing else changes. -/
def Obligations.AndOrResults : Prop :=
  ∀ (s : State) (rd rs1 rs2 : RegNum),
    EncodedBy (.and rd rs1 rs2) (0x30000000 ||| regAt rs1 22 ||| regAt rs2 17 ||| regAt rd 12) ∧
    EncodedBy (.or rd rs1 rs2) (0x38000000 ||| regAt rs1 22 ||| regAt rs2 17 ||| regAt rd 12) ∧
    (∃ v, WritesResult (.and rd rs1 rs2) s rd v ∧
      ∀ k < 32, v.getLsbD k = true ↔
        (s.readReg rs1).getLsbD k = true ∧ (s.readReg rs2).getLsbD k = true) ∧
    (∃ v, WritesResult (.or rd rs1 rs2) s rd v ∧
      ∀ k < 32, v.getLsbD k = true ↔
        (s.readReg rs1).getLsbD k = true ∨ (s.readReg rs2).getLsbD k = true)

/-- R92 (zero extension is D7; the other setting of `IMM_EXT` is log entry 13): ANDI. Under zero extension bits 31:12 are 0, under sign extension they
are kept or cleared with bit 11 of IMM. -/
def Obligations.AndiResult : Prop :=
  ∀ (s : State) (rd rs1 : RegNum) (imm : Imm12),
    EncodedBy (.andi rd rs1 imm) (0x40000000 ||| regAt rs1 22 ||| regAt rd 12 ||| imm.setWidth 32) ∧
    ∃ v, WritesResult (.andi rd rs1 imm) s rd v ∧
      ∀ k < 32, v.getLsbD k = true ↔ (s.readReg rs1).getLsbD k = true ∧
        (if k < 12 then imm.getLsbD k = true
         else s.cfg.immExt.andi = .sign ∧ imm.getLsbD 11 = true)

/-- R93, R94, R95: SLL and SRL for every count IMM can hold. Counts of 32 and more follow `SHIFT_MODE`
(D11, log entry 8); a count is always unsigned (log entry 13). -/
def Obligations.ShiftResults : Prop :=
  ∀ (s : State) (rd rs1 : RegNum) (imm : Imm12),
    EncodedBy (.sll rd rs1 imm) (0x48000000 ||| regAt rs1 22 ||| regAt rd 12 ||| imm.setWidth 32) ∧
    EncodedBy (.srl rd rs1 imm) (0x50000000 ||| regAt rs1 22 ||| regAt rd 12 ||| imm.setWidth 32) ∧
    WritesResult (.sll rd rs1 imm) s rd
      (if imm.toNat < 32 then BitVec.ofNat 32 ((s.readReg rs1).toNat * 2 ^ imm.toNat)
       else if s.cfg.shiftMode = .full then 0
       else BitVec.ofNat 32 ((s.readReg rs1).toNat * 2 ^ (imm.toNat % 32))) ∧
    WritesResult (.srl rd rs1 imm) s rd
      (if imm.toNat < 32 then BitVec.ofNat 32 ((s.readReg rs1).toNat / 2 ^ imm.toNat)
       else if s.cfg.shiftMode = .full then 0
       else BitVec.ofNat 32 ((s.readReg rs1).toNat / 2 ^ (imm.toNat % 32)))

/-! ## Load and store -/

/-- R41, R100 (D7, D14; the other setting of `IMM_EXT` is log entry 13): the effective address is base plus
displacement modulo 2^32, in words. -/
def Obligations.EffectiveAddressIsBasePlusDisplacement : Prop :=
  ∀ (s : State) (mode : ImmMode) (rs1 : RegNum) (imm : Imm12),
    s.effectiveAddress mode rs1 imm =
      BitVec.ofInt 32 (((s.readReg rs1).toNat : Int) + immInteger mode imm)

/-- R101: LW inside `DMEM_WORDS` loads the whole word at the effective address. Under `UNIFIED_MEMORY` =
true an address of the program loads its word (log entry 12). -/
def Obligations.LwResult : Prop :=
  ∀ (s : State) (rd rs1 : RegNum) (imm : Imm12),
    EncodedBy (.lw rd rs1 imm) (0x58000000 ||| regAt rs1 22 ||| regAt rd 12 ||| imm.setWidth 32) ∧
    let ea := s.effectiveAddress s.cfg.immExt.lw rs1 imm
    ea.toNat < s.cfg.dmemWords →
      WritesResult (.lw rd rs1 imm) s rd
        (if s.cfg.unifiedMemory = true ∧ ea.toNat < s.program.length
         then s.program.getD ea.toNat 0 else s.mem.readWord ea)

/-- R102 (operand placement is D5): SW inside `DMEM_WORDS` stores the whole data register at the effective
address and changes no other byte and no register. Under `UNIFIED_MEMORY` = true an address of the
program is stored there and no byte of data memory changes (log entry 12). -/
def Obligations.SwResult : Prop :=
  ∀ (s : State) (rs2 rs1 : RegNum) (imm : Imm12),
    EncodedBy (.sw rs2 rs1 imm) (0x60000000 ||| regAt rs1 22 ||| regAt rs2 17 ||| imm.setWidth 32) ∧
    let ea := s.effectiveAddress s.cfg.immExt.sw rs1 imm
    ea.toNat < s.cfg.dmemWords →
      ∃ t, exec (.sw rs2 rs1 imm) s = .next t ∧ t.pc = s.pc + 1 ∧ SameRegs s t ∧
        t.cfg = s.cfg ∧ t.faultMark = s.faultMark ∧ t.dataRead ea = .ok (s.readReg rs2) ∧
        (if s.cfg.unifiedMemory = true ∧ ea.toNat < s.program.length
         then SameMemory s t ∧ t.program = s.program.set ea.toNat (s.readReg rs2)
         else t.program = s.program ∧ t.mem.readWord ea = s.readReg rs2 ∧
           ∀ a : Nat, a < 4 * ea.toNat ∨ 4 * ea.toNat + 4 ≤ a →
             t.mem.readByte a = s.mem.readByte a)

/-- R42, R101, R102 (D14): outside `DMEM_WORDS` LW and SW raise `DataAddressOutOfRange` with the address. -/
def Obligations.OutOfRangeAccessFaults : Prop :=
  ∀ (s : State) (r rs1 : RegNum) (imm : Imm12),
    (s.cfg.dmemWords ≤ (s.effectiveAddress s.cfg.immExt.lw rs1 imm).toNat →
      exec (.lw r rs1 imm) s =
        .fault (.dataAddressOutOfRange (s.effectiveAddress s.cfg.immExt.lw rs1 imm))) ∧
    (s.cfg.dmemWords ≤ (s.effectiveAddress s.cfg.immExt.sw rs1 imm).toNat →
      exec (.sw r rs1 imm) s =
        .fault (.dataAddressOutOfRange (s.effectiveAddress s.cfg.immExt.sw rs1 imm)))

/-- R40, R42 (D14): words at different addresses do not overlap: a store is read back whole at its address, and a
read at every other address answers what it answered before. -/
def Obligations.StoreChangesOneWord : Prop :=
  ∀ (s t : State) (ea v b : Word), s.dataWrite ea v = .ok t →
    t.dataRead ea = .ok v ∧ (b ≠ ea → t.dataRead b = s.dataRead b)

/-- R48, R163 (D17, D27): an LW right after an SW to the same address loads the stored word. -/
def Obligations.LoadAfterStoreGivesStoredWord : Prop :=
  ∀ (s t : State) (rs2 rs1 rd rb : RegNum) (imm imm' : Imm12),
    exec (.sw rs2 rs1 imm) s = .next t →
    t.effectiveAddress t.cfg.immExt.lw rb imm' = s.effectiveAddress s.cfg.immExt.sw rs1 imm →
    WritesResult (.lw rd rb imm') t rd (s.readReg rs2)

/-! ## Control transfer -/

/-- R111, R110 (the extension of IMM is D7, its other setting log entry 13): BEQ. -/
def Obligations.BeqResult : Prop :=
  ∀ (s : State) (rs1 rs2 : RegNum) (imm : Imm12),
    EncodedBy (.beq rs1 rs2 imm) (0x70000000 ||| regAt rs1 22 ||| regAt rs2 17 ||| imm.setWidth 32) ∧
    GoesTo (.beq rs1 rs2 imm) s
      (if s.readReg rs1 = s.readReg rs2
       then BitVec.ofInt 32 ((s.pc.toNat : Int) + 1 + immInteger s.cfg.immExt.beq imm)
       else s.pc + 1)

/-- R112, R110 (the signed comparison is D12, the extension of IMM D7, its other setting log entry 13): BLT. -/
def Obligations.BltResult : Prop :=
  ∀ (s : State) (rs1 rs2 : RegNum) (imm : Imm12),
    EncodedBy (.blt rs1 rs2 imm) (0x78000000 ||| regAt rs1 22 ||| regAt rs2 17 ||| imm.setWidth 32) ∧
    GoesTo (.blt rs1 rs2 imm) s
      (if (s.cfg.cmpSigned = true ∧ (s.readReg rs1).toInt < (s.readReg rs2).toInt) ∨
          (s.cfg.cmpSigned = false ∧ (s.readReg rs1).toNat < (s.readReg rs2).toNat)
       then BitVec.ofInt 32 ((s.pc.toNat : Int) + 1 + immInteger s.cfg.immExt.blt imm)
       else s.pc + 1)

/-- R113, R110 (D12, D7; the other setting of `IMM_EXT` is log entry 13): BGT. -/
def Obligations.BgtResult : Prop :=
  ∀ (s : State) (rs1 rs2 : RegNum) (imm : Imm12),
    EncodedBy (.bgt rs1 rs2 imm) (0x80000000 ||| regAt rs1 22 ||| regAt rs2 17 ||| imm.setWidth 32) ∧
    GoesTo (.bgt rs1 rs2 imm) s
      (if (s.cfg.cmpSigned = true ∧ (s.readReg rs2).toInt < (s.readReg rs1).toInt) ∨
          (s.cfg.cmpSigned = false ∧ (s.readReg rs2).toNat < (s.readReg rs1).toNat)
       then BitVec.ofInt 32 ((s.pc.toNat : Int) + 1 + immInteger s.cfg.immExt.bgt imm)
       else s.pc + 1)

/-- R113: `bgt a, b, k` behaves exactly as `blt b, a, k` (with one `IMM_EXT` for both). -/
def Obligations.BgtIsBltWithOperandsExchanged : Prop :=
  ∀ (s : State) (rs1 rs2 : RegNum) (imm : Imm12), s.cfg.immExt.bgt = s.cfg.immExt.blt →
    exec (.bgt rs1 rs2 imm) s = exec (.blt rs2 rs1 imm) s

/-- R114 (operand placement is D5): JMP. -/
def Obligations.JmpResult : Prop :=
  ∀ (s : State) (rs1 : RegNum),
    EncodedBy (.jmp rs1) (0x88000000 ||| regAt rs1 22) ∧ GoesTo (.jmp rs1) s (s.readReg rs1)

/-- R115 (`$ra` is D4, reading the target first D21): JAL. The target is the register's value before
the link is written, also where the register is `$ra` (log entry 9); a link to a hardwired register 0 is
discarded (log entry 14). -/
def Obligations.JalResult : Prop :=
  ∀ (s : State) (rs1 : RegNum),
    EncodedBy (.jal rs1) (0x90000000 ||| regAt rs1 22) ∧
    ∃ t, exec (.jal rs1) s = .next t ∧ t.pc = s.readReg rs1 ∧
      RegWritten s t s.cfg.raIndex (BitVec.ofNat 32 (s.pc.toNat + 1)) ∧ SameMemory s t ∧ SameRun s t

/-- R116: a subroutine that keeps `$ra` and ends with `jmp $ra` returns to the instruction after the
JAL that called it. -/
def Obligations.ReturnGoesAfterCall : Prop :=
  ∀ (s t u : State) (rs1 : RegNum),
    ¬ (s.cfg.r0Hardwired = true ∧ s.cfg.raIndex = 0) →
    exec (.jal rs1) s = .next t →
    u.readReg s.cfg.raIndex = t.readReg s.cfg.raIndex →
    GoesTo (.jmp s.cfg.raIndex) u (s.pc + 1)

/-- R72: the IMM an assembler stores for a label takes the branch there when its condition holds, and a
label is rejected exactly outside -2048 to 2047 (the difference modulo 2^32 is log entry 16). -/
def Obligations.BranchReachesItsLabel : Prop :=
  ∀ (s : State) (l : Word) (imm : Imm12),
    (branchOffset l s.pc = none ↔
      (l - (s.pc + 1)).toInt < -2048 ∨ 2047 < (l - (s.pc + 1)).toInt) ∧
    (branchOffset l s.pc = some imm →
      (s.branchTarget .sign imm = l ∧
        ∀ r, s.cfg.immExt.beq = .sign → GoesTo (.beq r r imm) s l))

/-- R73: the idioms. SUB of a register from itself and ANDI with 0 (zero-extended) give 0; ADDI of 0 and OR of a
register with itself copy; and ADDI of 0 in place, and a branch with IMM 0, change nothing but the pc. -/
def Obligations.Idioms : Prop :=
  ∀ (s : State) (d r q : RegNum),
    WritesResult (.sub d r r) s d 0 ∧
    (s.cfg.immExt.andi = .zero → WritesResult (.andi d r 0) s d 0) ∧
    WritesResult (.addi d r 0) s d (s.readReg r) ∧
    WritesResult (.or d r r) s d (s.readReg r) ∧
    exec (.addi r r 0) s = .next s.advance ∧
    exec (.beq r q 0) s = .next s.advance

/-! ## Complex numbers -/

/-- R123, R124, R121 (wrap-around per half is D23): ADDC and SUBC work on each half separately, with no
carry or borrow between them, under either layout. Under the default `CPLX_COMPONENT` each half is
modulo 2^16; under every setting it holds the exact sum or difference as the setting says (log entry 22). -/
def Obligations.AddcSubcResults : Prop :=
  ∀ (s : State) (rd rs1 rs2 : RegNum),
    let re := reOf s.cfg.cplxRealHi
    let im := imOf s.cfg.cplxRealHi
    let held := componentValue s.cfg.cplxComponent
    let x := s.readReg rs1
    let y := s.readReg rs2
    let a := x.toNat
    let b := y.toNat
    EncodedBy (.addc rd rs1 rs2) (0x98000000 ||| regAt rs1 22 ||| regAt rs2 17 ||| regAt rd 12) ∧
    EncodedBy (.subc rd rs1 rs2) (0xA0000000 ||| regAt rs1 22 ||| regAt rs2 17 ||| regAt rd 12) ∧
    (∃ v, WritesResult (.addc rd rs1 rs2) s rd v ∧
      re v = held (re x + re y) ∧ im v = held (im x + im y)) ∧
    (∃ v, WritesResult (.subc rd rs1 rs2) s rd v ∧
      re v = held (re x - re y) ∧ im v = held (im x - im y)) ∧
    (s.cfg.cplxComponent = .wrap →
      WritesResult (.addc rd rs1 rs2) s rd
        (BitVec.ofNat 32
          ((a / 65536 + b / 65536) % 65536 * 65536 + (a % 65536 + b % 65536) % 65536)) ∧
      WritesResult (.subc rd rs1 rs2) s rd
        (BitVec.ofNat 32
          ((a / 65536 + (65536 - b / 65536)) % 65536 * 65536 +
            (a % 65536 + (65536 - b % 65536)) % 65536)))

/-- R125 (D22, D23, D24): MULC under the default `MULC_FN` is the integer complex product, each part
held in its half as `CPLX_COMPONENT` says, truncated to 16 bits by default (the other settings are log
entry 22); under the free setting of `MULC_FN` it is the free function (log entry 11). -/
def Obligations.MulcResult : Prop :=
  ∀ (s : State) (rd rs1 rs2 : RegNum),
    let re := reOf s.cfg.cplxRealHi
    let im := imOf s.cfg.cplxRealHi
    let held := componentValue s.cfg.cplxComponent
    let x := s.readReg rs1
    let y := s.readReg rs2
    EncodedBy (.mulc rd rs1 rs2) (0xA8000000 ||| regAt rs1 22 ||| regAt rs2 17 ||| regAt rd 12) ∧
    (s.cfg.mulcFn = .intProduct →
      ∃ v, WritesResult (.mulc rd rs1 rs2) s rd v ∧
        re v = held (re x * re y - im x * im y) ∧
        im v = held (re x * im y + im x * re y)) ∧
    (s.cfg.mulcFn = .free → WritesResult (.mulc rd rs1 rs2) s rd (Config.freeMulc x y))

/-- R122 (D22, D23, D26): DIVC by a divisor other than 0 + 0i under the default `DIVC_FN` is the complex
quotient, each part truncated toward zero and then held in its half as `CPLX_COMPONENT` says, truncated
to 16 bits by default (the other settings are log entry 22); under the free setting it is the free function's value, or its fault where the free function gives none (log entry 11). -/
def Obligations.DivcResult : Prop :=
  ∀ (s : State) (rd rs1 rs2 : RegNum),
    let re := reOf s.cfg.cplxRealHi
    let im := imOf s.cfg.cplxRealHi
    let held := componentValue s.cfg.cplxComponent
    let x := s.readReg rs1
    let y := s.readReg rs2
    let n := re y * re y + im y * im y
    EncodedBy (.divc rd rs1 rs2) (0x68000000 ||| regAt rs1 22 ||| regAt rs2 17 ||| regAt rd 12) ∧
    (s.cfg.divcFn = .truncQuotient → y ≠ 0 →
      ∃ v, WritesResult (.divc rd rs1 rs2) s rd v ∧
        re v = held ((re x * re y + im x * im y).tdiv n) ∧
        im v = held ((im x * re y - re x * im y).tdiv n)) ∧
    (s.cfg.divcFn = .free →
      match Config.freeDivc x y with
      | some v => WritesResult (.divc rd rs1 rs2) s rd v
      | none => exec (.divc rd rs1 rs2) s = .fault .complexDivideByZero)

/-- R126 (D22, D25): ABS under the default `ABS_FN` writes the modulus, rounded down, in the real half, held
there as `CPLX_COMPONENT` says, and 0 in the other; under the default `CPLX_COMPONENT` the modulus is there as
an unsigned pattern (the other settings are log entry 22). Under the free setting ABS is the free
function (log entry 11). -/
def Obligations.AbsResult : Prop :=
  ∀ (s : State) (rd rs1 : RegNum),
    let re := reOf s.cfg.cplxRealHi
    let im := imOf s.cfg.cplxRealHi
    let x := s.readReg rs1
    EncodedBy (.abs rd rs1) (0xB0000000 ||| regAt rs1 22 ||| regAt rd 12) ∧
    (s.cfg.absFn = .modulus →
      ∃ (m : Nat) (v : Word), (m : Int) * m ≤ re x * re x + im x * im x ∧
        re x * re x + im x * im x < ((m : Int) + 1) * (m + 1) ∧ m ≤ 46340 ∧
        WritesResult (.abs rd rs1) s rd v ∧
        re v = componentValue s.cfg.cplxComponent m ∧ im v = 0 ∧
        (s.cfg.cplxComponent = .wrap →
          v = BitVec.ofNat 32 (if s.cfg.cplxRealHi = true then m * 65536 else m))) ∧
    (s.cfg.absFn = .free → WritesResult (.abs rd rs1) s rd (Config.freeAbs x))

/-- R127 (D22, D23): CONJ keeps the real half and negates the imaginary one, modulo 2^16 under the default
`CPLX_COMPONENT` (the other settings are log entry 22). -/
def Obligations.ConjResult : Prop :=
  ∀ (s : State) (rd rs1 : RegNum),
    let re := reOf s.cfg.cplxRealHi
    let im := imOf s.cfg.cplxRealHi
    let x := s.readReg rs1
    let a := x.toNat
    EncodedBy (.conj rd rs1) (0xB8000000 ||| regAt rs1 22 ||| regAt rd 12) ∧
    ∃ v, WritesResult (.conj rd rs1) s rd v ∧
      re v = re x ∧ im v = componentValue s.cfg.cplxComponent (-im x) ∧
      (s.cfg.cplxComponent = .wrap →
        v = BitVec.ofNat 32
          (if s.cfg.cplxRealHi = true
           then a / 65536 * 65536 + (65536 - a % 65536) % 65536
           else (65536 - a / 65536) % 65536 * 65536 + a % 65536))

/-- R127 (D23): applying CONJ twice returns the original value, in every case under the default
`CPLX_COMPONENT`, and under every setting (log entry 22) where the imaginary part is not -32768. -/
def Obligations.ConjTwiceIsIdentity : Prop :=
  ∀ (s t : State) (rd rs1 re : RegNum), ¬ (s.cfg.r0Hardwired = true ∧ rd = 0) →
    (s.cfg.cplxComponent = .wrap ∨ imOf s.cfg.cplxRealHi (s.readReg rs1) ≠ -32768) →
    exec (.conj rd rs1) s = .next t → WritesResult (.conj re rd) t re (s.readReg rs1)

/-! ## What the parameters cannot change -/

/-- R95, R22 and the well-formedness predicate of 93_implementation_defined.md (U5, U13, U14): an instruction
that satisfies it and avoids register 0 does the same under every setting of `SHIFT_MODE` and
`R0_HARDWIRED_ZERO` (the words the predicate refuses are log entries 8 and 9). -/
def Obligations.ConservativeInstructionsIgnoreParameters : Prop :=
  ∀ (i : Instr) (s : State) (mode : ShiftMode) (zero : Bool),
    i.wellFormed s.cfg = true → i.avoidsRegZero s.cfg = true →
    let cfg := { s.cfg with shiftMode := mode, r0Hardwired := zero }
    exec i (withConfig s cfg) = outcomeWithConfig cfg (exec i s)

/-- R68: an instruction whose IMM is 0 to 2047, or that widens no IMM, does the same under every setting of
`IMM_EXT` (log entry 13). -/
def Obligations.SmallImmediatesIgnoreExtension : Prop :=
  ∀ (i : Instr) (s : State) (ext : ImmExt),
    (∀ imm, widenedImm i = some imm → imm.toNat < 2048) →
    let cfg := { s.cfg with immExt := ext }
    exec i (withConfig s cfg) = outcomeWithConfig cfg (exec i s)

/-- R110: BLT and BGT on operands below 2^31, and every other instruction on any operands, do the same
under both settings of `CMP_SIGNED`. -/
def Obligations.ComparisonReadingsAgree : Prop :=
  ∀ (i : Instr) (s : State) (signed : Bool),
    (∀ rs1 rs2 imm, i = .blt rs1 rs2 imm ∨ i = .bgt rs1 rs2 imm →
      (s.readReg rs1).toNat < 2 ^ 31 ∧ (s.readReg rs2).toNat < 2 ^ 31) →
    let cfg := { s.cfg with cmpSigned := signed }
    exec i (withConfig s cfg) = outcomeWithConfig cfg (exec i s)

/-- R120, R125, U12: an instruction whose exact parts, if it puts any in halves, fit 16 bits as signed
numbers does the same under every setting of `CPLX_COMPONENT` (log entry 22). -/
def Obligations.ComponentSettingMattersOnlyOnOverflow : Prop :=
  ∀ (i : Instr) (s : State) (c : CplxComponent),
    (∀ n ∈ exactParts s i, FitsHalf n) →
    let cfg := { s.cfg with cplxComponent := c }
    exec i (withConfig s cfg) = outcomeWithConfig cfg (exec i s)

/-! ## Register fields -/

/-- R69: in every format R_SOURCE1 is bits 26:22, R_SOURCE2 bits 21:17 and R_DESTINY bits 16:12 of the word,
each the number of a register. -/
def Obligations.RegisterFieldPositions : Prop :=
  ∀ (strict : Bool) (w : Word) (i : Instr), decode strict w = .ok i →
    (∀ r, (registerFields i).1 = some r → r.toNat = w.toNat / 2 ^ 22 % 32) ∧
    (∀ r, (registerFields i).2.1 = some r → r.toNat = w.toNat / 2 ^ 17 % 32) ∧
    (∀ r, (registerFields i).2.2 = some r → r.toNat = w.toNat / 2 ^ 12 % 32)
end

