-- ==== Sys2Proof/Laws/Complex.lean ====
section
/-! SUPPORT. What the halves of a packed complex value read as (R120). -/

namespace Sys2Proof.Machine

@[simp] theorem hiHalf_append (a b : Half) : hiHalf (a ++ b) = a := by
  apply BitVec.eq_of_getLsbD_eq
  intro i hi
  simp only [hiHalf, BitVec.getLsbD_extractLsb', BitVec.getLsbD_append]
  simp [hi]

@[simp] theorem loHalf_append (a b : Half) : loHalf (a ++ b) = b := by
  apply BitVec.eq_of_getLsbD_eq
  intro i hi
  simp only [loHalf, BitVec.getLsbD_extractLsb', BitVec.getLsbD_append]
  simp [hi]

/-- A word is its two halves. -/
theorem hiHalf_append_loHalf (v : Word) : hiHalf v ++ loHalf v = v := by
  apply BitVec.eq_of_getLsbD_eq
  intro i hi
  simp only [hiHalf, loHalf, BitVec.getLsbD_append, BitVec.getLsbD_extractLsb']
  interval_cases i <;> simp

theorem reOf_packComplex (cfg : Config) (a b : Int) :
    reOf cfg.cplxRealHi (packComplex cfg a b) = (componentHalf cfg.cplxComponent a).toInt := by
  unfold reOf packComplex
  cases cfg.cplxRealHi <;> simp

theorem imOf_packComplex (cfg : Config) (a b : Int) :
    imOf cfg.cplxRealHi (packComplex cfg a b) = (componentHalf cfg.cplxComponent b).toInt := by
  unfold imOf packComplex
  cases cfg.cplxRealHi <;> simp

/-- A part that fits is held as it is, under every setting of `CPLX_COMPONENT`. -/
theorem componentHalf_of_fits {n : Int} (h : -32768 ≤ n ∧ n ≤ 32767) (c : CplxComponent) :
    componentHalf c n = trunc16 n := by
  cases c with
  | wrap => rfl
  | saturate => rw [componentHalf, min_eq_right h.2, max_eq_right h.1]
  | free => rw [componentHalf, if_pos h]

/-- A packed value whose parts fit does not depend on `CPLX_COMPONENT`. -/
theorem packComplex_of_fits {a b : Int} (ha : -32768 ≤ a ∧ a ≤ 32767) (hb : -32768 ≤ b ∧ b ≤ 32767)
    (cfg : Config) (c : CplxComponent) :
    packComplex { cfg with cplxComponent := c } a b = packComplex cfg a b := by
  simp only [packComplex, componentHalf_of_fits ha, componentHalf_of_fits hb]

end Sys2Proof.Machine
end

