-- ==== Sys2Proof/Laws/Encoding.lean ====
section
/-! SUPPORT. The fields of a laid-out word (R62 to R64, R69). -/

namespace Sys2Proof

variable (op : BitVec 5) (rs1 rs2 rd : RegNum) (low : BitVec 12)

@[simp] theorem opcodeOf_layoutWord : opcodeOf (layoutWord op rs1 rs2 rd low) = op := by
  apply BitVec.eq_of_getLsbD_eq
  intro i hi
  simp only [opcodeOf, layoutWord, BitVec.getLsbD_extractLsb', BitVec.getLsbD_append]
  interval_cases i <;> simp

@[simp] theorem rs1Of_layoutWord : rs1Of (layoutWord op rs1 rs2 rd low) = rs1 := by
  apply BitVec.eq_of_getLsbD_eq
  intro i hi
  simp only [rs1Of, layoutWord, BitVec.getLsbD_extractLsb', BitVec.getLsbD_append]
  interval_cases i <;> simp

@[simp] theorem rs2Of_layoutWord : rs2Of (layoutWord op rs1 rs2 rd low) = rs2 := by
  apply BitVec.eq_of_getLsbD_eq
  intro i hi
  simp only [rs2Of, layoutWord, BitVec.getLsbD_extractLsb', BitVec.getLsbD_append]
  interval_cases i <;> simp

@[simp] theorem rdOf_layoutWord : rdOf (layoutWord op rs1 rs2 rd low) = rd := by
  apply BitVec.eq_of_getLsbD_eq
  intro i hi
  simp only [rdOf, layoutWord, BitVec.getLsbD_extractLsb', BitVec.getLsbD_append]
  interval_cases i <;> simp

@[simp] theorem immOf_layoutWord : immOf (layoutWord op rs1 rs2 rd low) = low := by
  apply BitVec.eq_of_getLsbD_eq
  intro i hi
  simp only [immOf, layoutWord, BitVec.getLsbD_extractLsb', BitVec.getLsbD_append]
  interval_cases i <;> simp

/-- A word is the layout of its own fields. -/
theorem layoutWord_fields (w : Word) :
    layoutWord (opcodeOf w) (rs1Of w) (rs2Of w) (rdOf w) (immOf w) = w := by
  apply BitVec.eq_of_getLsbD_eq
  intro i hi
  simp only [opcodeOf, rs1Of, rs2Of, rdOf, immOf, layoutWord, BitVec.getLsbD_extractLsb',
    BitVec.getLsbD_append]
  interval_cases i <;> simp

/-- The masks of R75 are the fields they name. -/
theorem mask_low : (0x00000FFF : Word) = layoutWord 0 0 0 0 0xFFF := rfl
theorem mask_rs2 : (0x003E0000 : Word) = layoutWord 0 0 0x1F 0 0 := rfl
theorem mask_rd : (0x0001F000 : Word) = layoutWord 0 0 0 0x1F 0 := rfl
theorem mask_rs2_rd_low : (0x003FFFFF : Word) = layoutWord 0 0 0x1F 0x1F 0xFFF := rfl
theorem mask_rs2_low : (0x003E0FFF : Word) = layoutWord 0 0 0x1F 0 0xFFF := rfl

/-- AND of two laid-out words, field by field. -/
theorem layoutWord_and (op' : BitVec 5) (rs1' rs2' rd' : RegNum) (low' : BitVec 12) :
    layoutWord op rs1 rs2 rd low &&& layoutWord op' rs1' rs2' rd' low' =
      layoutWord (op &&& op') (rs1 &&& rs1') (rs2 &&& rs2') (rd &&& rd') (low &&& low') := by
  unfold layoutWord
  rw [BitVec.and_append, BitVec.and_append, BitVec.and_append, BitVec.and_append]

/-- A laid-out word is 0 exactly when every field is. -/
theorem layoutWord_eq_zero :
    layoutWord op rs1 rs2 rd low = 0 ↔ op = 0 ∧ rs1 = 0 ∧ rs2 = 0 ∧ rd = 0 ∧ low = 0 := by
  constructor
  · intro h
    exact ⟨by rw [← opcodeOf_layoutWord op rs1 rs2 rd low, h]; rfl,
      by rw [← rs1Of_layoutWord op rs1 rs2 rd low, h]; rfl,
      by rw [← rs2Of_layoutWord op rs1 rs2 rd low, h]; rfl,
      by rw [← rdOf_layoutWord op rs1 rs2 rd low, h]; rfl,
      by rw [← immOf_layoutWord op rs1 rs2 rd low, h]; rfl⟩
  · rintro ⟨rfl, rfl, rfl, rfl, rfl⟩
    rfl

end Sys2Proof
end

