-- ==== Sys2Proof/Laws/Memory.lean ====
section
/-! SUPPORT. What a byte or a word of memory reads as after a write, and that every write keeps the
canonical form. -/

namespace Sys2Proof.Machine

/-- The four bytes of a word, joined again. -/
theorem append_four_bytes (v : Word) :
    v.extractLsb' 24 8 ++ v.extractLsb' 16 8 ++ v.extractLsb' 8 8 ++ v.extractLsb' 0 8 = v := by
  apply BitVec.eq_of_getLsbD_eq
  intro i hi
  simp only [BitVec.getLsbD_append, BitVec.getLsbD_extractLsb']
  interval_cases i <;> simp

theorem Memory.readByte_filter_self (m : Memory) (a : Nat) :
    Memory.readByte (m.filter (fun c => decide (c.1 ≠ a))) a = Memory.unlisted := by
  induction m with
  | nil => rfl
  | cons c rest ih =>
    obtain ⟨b, u⟩ := c
    by_cases h : b = a
    · simpa [List.filter_cons, h] using ih
    · simpa [List.filter_cons, h, Memory.readByte, Ne.symm h] using ih

theorem Memory.readByte_filter_ne (m : Memory) {a b : Nat} (h : b ≠ a) :
    Memory.readByte (m.filter (fun c => decide (c.1 ≠ a))) b = m.readByte b := by
  induction m with
  | nil => rfl
  | cons c rest ih =>
    obtain ⟨d, u⟩ := c
    by_cases hd : d = a
    · subst hd; simpa [List.filter_cons, Memory.readByte, h] using ih
    · by_cases hb : b = d
      · simp [hd, Memory.readByte, hb]
      · simpa [List.filter_cons, hd, Memory.readByte, hb] using ih

theorem Memory.readByte_insertCell (m : Memory) (a b : Nat) (v : Byte)
    (h : ∀ c ∈ m, c.1 ≠ a) :
    Memory.readByte (m.insertCell a v) b = if b = a then v else m.readByte b := by
  induction m with
  | nil => rfl
  | cons c rest ih =>
    obtain ⟨d, u⟩ := c
    have hd : d ≠ a := h (d, u) (by simp)
    have ih := ih (fun c hc => h c (by simp [hc]))
    by_cases hlt : a < d
    · simp [Memory.insertCell, hlt, Memory.readByte]
    · by_cases hb : b = d
      · subst hb; simp [Memory.insertCell, hlt, Memory.readByte, hd]
      · simpa [Memory.insertCell, hlt, Memory.readByte, hb] using ih

/-- A byte after a write: the one written at that address, the old one at any other. -/
theorem Memory.readByte_writeByte (m : Memory) (a b : Nat) (v : Byte) :
    (m.writeByte a v).readByte b = if b = a then v else m.readByte b := by
  unfold Memory.writeByte
  by_cases hv : v = Memory.unlisted
  · by_cases hb : b = a
    · subst hb; simpa [hv] using m.readByte_filter_self b
    · simpa [hv, hb] using m.readByte_filter_ne hb
  · simp only [hv, if_false]
    rw [Memory.readByte_insertCell _ _ _ _ (by simp)]
    by_cases hb : b = a
    · simp [hb]
    · simpa [hb] using m.readByte_filter_ne hb

theorem Memory.mem_insertCell (m : Memory) (a : Nat) (v : Byte) (c : Host.Cell) :
    c ∈ m.insertCell a v ↔ c = (a, v) ∨ c ∈ m := by
  induction m with
  | nil => simp [Memory.insertCell]
  | cons d rest ih =>
    obtain ⟨b, u⟩ := d
    by_cases h : a < b
    · simp [Memory.insertCell, h]
    · simp only [Memory.insertCell, h, if_false, List.mem_cons, ih]; tauto

theorem Memory.sorted_insertCell (m : Memory) (a : Nat) (v : Byte)
    (hs : m.Pairwise (fun c d => c.1 < d.1)) (h : ∀ c ∈ m, c.1 ≠ a) :
    (m.insertCell a v).Pairwise (fun c d => c.1 < d.1) := by
  induction m with
  | nil => simp [Memory.insertCell]
  | cons d rest ih =>
    obtain ⟨b, u⟩ := d
    have hb : b ≠ a := h (b, u) (by simp)
    obtain ⟨hrest, hs⟩ := List.pairwise_cons.1 hs
    by_cases hlt : a < b
    · simp only [Memory.insertCell, hlt, if_true, List.pairwise_cons, List.mem_cons]
      exact ⟨fun c hc => by
        rcases hc with rfl | hc
        · exact hlt
        · exact hlt.trans (hrest c hc), hrest, hs⟩
    · simp only [Memory.insertCell, hlt, if_false, List.pairwise_cons]
      refine ⟨fun c hc => ?_, ih hs (fun c hc => h c (by simp [hc]))⟩
      rcases (Memory.mem_insertCell _ _ _ _).1 hc with rfl | hc
      · show b < a; omega
      · exact hrest c hc

/-- A write of a byte keeps the canonical form. -/
theorem Memory.wf_writeByte {m : Memory} (h : m.wf) (a : Nat) (v : Byte) : (m.writeByte a v).wf := by
  obtain ⟨hs, hz⟩ := h
  have hs' := hs.filter (fun c => decide (c.1 ≠ a))
  unfold Memory.writeByte
  by_cases hv : v = Memory.unlisted
  · simp only [hv, if_true]
    exact ⟨hs', fun c hc => hz c (List.mem_filter.1 hc).1⟩
  · simp only [hv, if_false]
    refine ⟨Memory.sorted_insertCell _ _ _ hs' (by simp), fun c hc => ?_⟩
    rcases (Memory.mem_insertCell _ _ _ _).1 hc with rfl | hc
    · exact hv
    · exact hz c (List.mem_filter.1 hc).1

/-- What a write lists: the cell written, or a cell listed before. -/
theorem Memory.mem_writeByte {m : Memory} {a : Nat} {v : Byte} {c : Host.Cell}
    (h : c ∈ m.writeByte a v) : c.1 = a ∨ c ∈ m := by
  unfold Memory.writeByte at h
  by_cases hv : v = Memory.unlisted
  · simp only [hv, if_true] at h; exact .inr (List.mem_filter.1 h).1
  · simp only [hv, if_false] at h
    rcases (Memory.mem_insertCell _ _ _ _).1 h with rfl | h
    · exact .inl rfl
    · exact .inr (List.mem_filter.1 h).1

/-- A write of a word keeps the canonical form. -/
theorem Memory.wf_writeWord {m : Memory} (h : m.wf) (a v : Word) : (m.writeWord a v).wf :=
  Memory.wf_writeByte (Memory.wf_writeByte (Memory.wf_writeByte (Memory.wf_writeByte h _ _) _ _) _ _) _ _

/-- What a write of a word lists: one of its four bytes' addresses, or a cell listed before. -/
theorem Memory.mem_writeWord {m : Memory} {a v : Word} {c : Host.Cell} (h : c ∈ m.writeWord a v) :
    (4 * a.toNat ≤ c.1 ∧ c.1 < 4 * a.toNat + 4) ∨ c ∈ m := by
  unfold Memory.writeWord at h
  rcases Memory.mem_writeByte h with h | h
  · exact .inl (by simp [byteAddr] at h; omega)
  rcases Memory.mem_writeByte h with h | h
  · exact .inl (by simp [byteAddr] at h; omega)
  rcases Memory.mem_writeByte h with h | h
  · exact .inl (by simp [byteAddr] at h; omega)
  rcases Memory.mem_writeByte h with h | h
  · exact .inl (by simp [byteAddr] at h; omega)
  · exact .inr h

/-- A byte outside the stored word reads as before. -/
theorem Memory.readByte_writeWord_outside (m : Memory) (a v : Word) (b : Nat)
    (h : b < 4 * a.toNat ∨ 4 * a.toNat + 4 ≤ b) :
    (m.writeWord a v).readByte b = m.readByte b := by
  have h0 : b ≠ byteAddr a 0 := by simp only [byteAddr]; omega
  have h1 : b ≠ byteAddr a 1 := by simp only [byteAddr]; omega
  have h2 : b ≠ byteAddr a 2 := by simp only [byteAddr]; omega
  have h3 : b ≠ byteAddr a 3 := by simp only [byteAddr]; omega
  simp [Memory.writeWord, Memory.readByte_writeByte, h0, h1, h2, h3]

/-- A load of the word just stored gives it back, whole. -/
theorem Memory.readWord_writeWord_same (m : Memory) (a v : Word) :
    (m.writeWord a v).readWord a = v := by
  have e : ∀ k l : Nat, (byteAddr a k = byteAddr a l) = (k = l) := by
    intro k l; simp [byteAddr]
  simp only [Memory.readWord, Memory.writeWord, Memory.readByte_writeByte, e]
  norm_num
  exact append_four_bytes v

/-- Words at different addresses do not overlap (R40). -/
theorem Memory.readWord_writeWord_ne (m : Memory) {a b : Word} (v : Word) (h : b ≠ a) :
    (m.writeWord a v).readWord b = m.readWord b := by
  have hne : b.toNat ≠ a.toNat := fun e => h (BitVec.eq_of_toNat_eq e)
  have out : ∀ k < 4, (m.writeWord a v).readByte (byteAddr b k) = m.readByte (byteAddr b k) := by
    intro k hk
    exact m.readByte_writeWord_outside a v _ (by simp only [byteAddr]; omega)
  simp [Memory.readWord, out]

end Sys2Proof.Machine
end

