-- ==== Sys2Proof/Laws/State.lean ====
section
/-! SUPPORT. One lemma for each field under each update of the state. -/

namespace Sys2Proof.Machine

@[simp] theorem State.setPc_regs (s : State) (t : Word) : (s.setPc t).regs = s.regs := rfl
@[simp] theorem State.setPc_pc (s : State) (t : Word) : (s.setPc t).pc = t := rfl
@[simp] theorem State.setPc_mem (s : State) (t : Word) : (s.setPc t).mem = s.mem := rfl
@[simp] theorem State.setPc_faultMark (s : State) (t : Word) : (s.setPc t).faultMark = s.faultMark := rfl
@[simp] theorem State.setPc_program (s : State) (t : Word) : (s.setPc t).program = s.program := rfl
@[simp] theorem State.setPc_cfg (s : State) (t : Word) : (s.setPc t).cfg = s.cfg := rfl

@[simp] theorem State.advance_regs (s : State) : s.advance.regs = s.regs := rfl
@[simp] theorem State.advance_pc (s : State) : s.advance.pc = s.pc + 1 := rfl
@[simp] theorem State.advance_mem (s : State) : s.advance.mem = s.mem := rfl
@[simp] theorem State.advance_faultMark (s : State) : s.advance.faultMark = s.faultMark := rfl
@[simp] theorem State.advance_program (s : State) : s.advance.program = s.program := rfl
@[simp] theorem State.advance_cfg (s : State) : s.advance.cfg = s.cfg := rfl

@[simp] theorem State.writeReg_pc (s : State) (r : RegNum) (v : Word) : (s.writeReg r v).pc = s.pc := by
  unfold State.writeReg; split <;> rfl

@[simp] theorem State.writeReg_mem (s : State) (r : RegNum) (v : Word) : (s.writeReg r v).mem = s.mem := by
  unfold State.writeReg; split <;> rfl

@[simp] theorem State.writeReg_faultMark (s : State) (r : RegNum) (v : Word) :
    (s.writeReg r v).faultMark = s.faultMark := by
  unfold State.writeReg; split <;> rfl

@[simp] theorem State.writeReg_program (s : State) (r : RegNum) (v : Word) :
    (s.writeReg r v).program = s.program := by
  unfold State.writeReg; split <;> rfl

@[simp] theorem State.writeReg_cfg (s : State) (r : RegNum) (v : Word) : (s.writeReg r v).cfg = s.cfg := by
  unfold State.writeReg; split <;> rfl

@[simp] theorem State.markFault_regs (s : State) (f : Fault) : (s.markFault f).regs = s.regs := by
  unfold State.markFault; split <;> rfl

@[simp] theorem State.markFault_pc (s : State) (f : Fault) : (s.markFault f).pc = s.pc := by
  unfold State.markFault; split <;> rfl

@[simp] theorem State.markFault_mem (s : State) (f : Fault) : (s.markFault f).mem = s.mem := by
  unfold State.markFault; split <;> rfl

@[simp] theorem State.markFault_program (s : State) (f : Fault) : (s.markFault f).program = s.program := by
  unfold State.markFault; split <;> rfl

@[simp] theorem State.markFault_cfg (s : State) (f : Fault) : (s.markFault f).cfg = s.cfg := by
  unfold State.markFault; split <;> rfl

@[simp] theorem State.nextPc_eq (s : State) : s.nextPc = s.pc + 1 := rfl

end Sys2Proof.Machine
end

