-- ==== Sys2Proof/Laws/Ops.lean ====
section
/-! SUPPORT. What each shared operation over registers, memory and the program can do, once. -/

namespace Sys2Proof.Machine

@[simp] theorem State.hardwired_eq_true (s : State) (r : RegNum) :
    s.hardwired r = true ↔ s.cfg.r0Hardwired = true ∧ r = 0 := by
  simp [State.hardwired]

/-- A read of a register depends on the registers and on `R0_HARDWIRED_ZERO` alone. -/
theorem State.readReg_congr {s t : State} (hr : t.regs = s.regs) (hc : t.cfg = s.cfg) (r : RegNum) :
    t.readReg r = s.readReg r := by
  simp [State.readReg, State.hardwired, hr, hc]

@[simp] theorem State.readReg_setPc (s : State) (p : Word) (r : RegNum) :
    (s.setPc p).readReg r = s.readReg r := rfl

@[simp] theorem State.readReg_advance (s : State) (r : RegNum) :
    s.advance.readReg r = s.readReg r := rfl

/-- A register after a write to the same register. -/
theorem State.readReg_writeReg_same (s : State) (r : RegNum) (v : Word) :
    (s.writeReg r v).readReg r = if s.cfg.r0Hardwired = true ∧ r = 0 then 0 else v := by
  by_cases h : s.hardwired r = true
  · have h' := (s.hardwired_eq_true r).1 h
    simp only [State.writeReg, State.readReg, if_pos h, if_pos h']
  · have h' := fun e => h ((s.hardwired_eq_true r).2 e)
    simp only [State.writeReg, if_neg h, if_neg h']
    have h2 : ¬ State.hardwired { s with regs := s.regs.set r.toNat v r.isLt } r = true := h
    simp only [State.readReg, if_neg h2]
    simp

/-- A register after a write to another one. -/
theorem State.readReg_writeReg_ne (s : State) {r r' : RegNum} (v : Word) (h : r' ≠ r) :
    (s.writeReg r v).readReg r' = s.readReg r' := by
  have hn : r.toNat ≠ r'.toNat := fun e => h (BitVec.eq_of_toNat_eq e.symm)
  by_cases hw : s.hardwired r = true
  · simp only [State.writeReg, if_pos hw]
  · rw [State.writeReg, if_neg hw]
    show (if s.hardwired r' = true then (0 : Word) else _) = if s.hardwired r' = true then 0 else _
    split_ifs
    · rfl
    · exact Vector.getElem_set_ne r.isLt r'.isLt hn

/-- A hardwired register reads 0 (R22). -/
theorem State.readReg_hardwired {s : State} {r : RegNum} (h : s.hardwired r = true) : s.readReg r = 0 := by
  simp only [State.readReg, if_pos h]

/-- A register write keeps what a hardwired register 0 holds. -/
theorem State.writeReg_keeps_zero {s : State} (h : s.cfg.r0Hardwired = true → s.regs[0] = 0)
    (r : RegNum) (v : Word) : (s.writeReg r v).cfg.r0Hardwired = true → (s.writeReg r v).regs[0] = 0 := by
  intro hc
  rw [State.writeReg_cfg] at hc
  by_cases hw : s.hardwired r = true
  · simpa only [State.writeReg, if_pos hw] using h hc
  · have hr : r.toNat ≠ 0 := fun e =>
      hw ((s.hardwired_eq_true r).2 ⟨hc, BitVec.eq_of_toNat_eq (by simpa using e)⟩)
    simp only [State.writeReg, if_neg hw]
    rw [Vector.getElem_set_ne _ _ hr]
    exact h hc

/-- `MemRead` faults exactly outside `DMEM_WORDS` (R42). -/
theorem State.dataRead_error_iff (s : State) (ea : Word) (f : Fault) :
    s.dataRead ea = .error f ↔ s.cfg.dmemWords ≤ ea.toNat ∧ f = .dataAddressOutOfRange ea := by
  unfold State.dataRead
  split_ifs with h h' <;> simp [h, eq_comm]

/-- What `MemRead` answers inside `DMEM_WORDS`. -/
theorem State.dataRead_of_lt {s : State} {ea : Word} (h : ea.toNat < s.cfg.dmemWords) :
    s.dataRead ea =
      .ok (if s.inProgram ea then s.program.getD ea.toNat 0 else s.mem.readWord ea) := by
  unfold State.dataRead
  rw [if_neg (by omega)]
  split_ifs <;> rfl

/-- `MemWrite` faults exactly outside `DMEM_WORDS` (R42). -/
theorem State.dataWrite_error_iff (s : State) (ea v : Word) (f : Fault) :
    s.dataWrite ea v = .error f ↔ s.cfg.dmemWords ≤ ea.toNat ∧ f = .dataAddressOutOfRange ea := by
  unfold State.dataWrite
  split_ifs with h h' <;> simp [h, eq_comm]

/-- What `MemWrite` does when it completes: the address is inside `DMEM_WORDS`, and one word of the
program (unified memory only) or of data memory changes. -/
theorem State.dataWrite_ok {s t : State} {ea v : Word} (h : s.dataWrite ea v = .ok t) :
    ea.toNat < s.cfg.dmemWords ∧
      ((s.inProgram ea = true ∧ t = { s with program := s.program.set ea.toNat v }) ∨
       (s.inProgram ea = false ∧ t = { s with mem := s.mem.writeWord ea v })) := by
  unfold State.dataWrite at h
  split_ifs at h with h1 h2
  · exact ⟨by omega, .inl ⟨h2, by simpa using h.symm⟩⟩
  · exact ⟨by omega, .inr ⟨by simpa using h2, by simpa using h.symm⟩⟩

/-- What fetch and decode answer (R35, R53, R66, R67). -/
theorem State.fetchInstr_ok_iff (s : State) (i : Instr) :
    s.fetchInstr = .ok i ↔
      ∃ w, s.program[s.pc.toNat]? = some w ∧ decode s.cfg.strictUnused w = .ok i := by
  unfold State.fetchInstr State.fetch
  cases hp : s.program[s.pc.toNat]? with
  | none => simp
  | some w =>
    cases hd : decode s.cfg.strictUnused w with
    | error e => simp [hd]
    | ok j => simp [hd]

/-- What an instruction that writes a register and goes on does to the state. -/
theorem State.retire_eq (s : State) (rd : RegNum) (v : Word) :
    s.retire rd v = .next (s.writeReg rd v).advance := rfl

/-- What a conditional branch does to the state: the pc alone changes. -/
theorem State.branch_eq (s : State) (taken : Bool) (mode : ImmMode) (imm : Imm12) :
    s.branch taken mode imm =
      .next (s.setPc (if taken then s.branchTarget mode imm else s.pc + 1)) := by
  unfold State.branch
  split_ifs <;> rfl

/-- Marking a fault on a state that has none. -/
theorem State.markFault_of_none {s : State} (h : s.faultMark = none) (f : Fault) :
    (s.markFault f).faultMark = some f := by
  simp [State.markFault, h]

/-- A marked state keeps its mark (R141). -/
theorem State.markFault_of_some {s : State} {f : Fault} (h : s.faultMark = some f) (g : Fault) :
    s.markFault g = s := by
  simp [State.markFault, h]

/-- The placed word is at the address it was placed at. -/
theorem placeWord_getElem? (p : List Word) (a : Nat) (w : Word) : (placeWord p a w)[a]? = some w := by
  have hl : (p.take a ++ List.replicate (a - p.length) (0 : Word)).length = a := by
    simp only [List.length_append, List.length_take, List.length_replicate]; omega
  unfold placeWord
  rw [List.getElem?_append_left (by simp only [List.length_append, hl, List.length_singleton]; omega),
    List.getElem?_append_right (by omega), hl]
  simp

end Sys2Proof.Machine
end

