-- ==== Sys2Proof/Laws/Exec.lean ====
section
/-! SUPPORT. What an instruction and a step can do, said once: every form of a next state, and LW, SW,
DIV and DIVC with their two ends. -/

namespace Sys2Proof.Machine

/-- LW, both ends (R101, R42). -/
theorem execLw_eq (rd rs1 : RegNum) (imm : Imm12) (s : State) :
    execLw rd rs1 imm s =
      (let ea := s.effectiveAddress s.cfg.immExt.lw rs1 imm
       if s.cfg.dmemWords ≤ ea.toNat then .fault (.dataAddressOutOfRange ea)
       else s.retire rd (if s.inProgram ea then s.program.getD ea.toNat 0 else s.mem.readWord ea)) := by
  simp only [execLw, State.dataRead]
  split_ifs <;> rfl

/-- SW, both ends (R102, R42). -/
theorem execSw_eq (rs2 rs1 : RegNum) (imm : Imm12) (s : State) :
    execSw rs2 rs1 imm s =
      (let ea := s.effectiveAddress s.cfg.immExt.sw rs1 imm
       if s.cfg.dmemWords ≤ ea.toNat then .fault (.dataAddressOutOfRange ea)
       else if s.inProgram ea then
         .next { s with pc := s.pc + 1, program := s.program.set ea.toNat (s.readReg rs2) }
       else .next { s with pc := s.pc + 1, mem := s.mem.writeWord ea (s.readReg rs2) }) := by
  simp only [execSw, State.dataWrite]
  split_ifs <;> rfl

/-- Every next state of an instruction is one of four: the destination written and the pc advanced; one
word stored and the pc advanced; the pc alone changed; or the link written and the pc changed. -/
theorem exec_next {i : Instr} {s t : State} (h : exec i s = .next t) :
    (∃ rd v, i.dest s.cfg = some rd ∧ (∀ rs1, i ≠ .jal rs1) ∧ t = (s.writeReg rd v).advance) ∨
    (∃ rs2 rs1 imm u, i = .sw rs2 rs1 imm ∧
      s.dataWrite (s.effectiveAddress s.cfg.immExt.sw rs1 imm) (s.readReg rs2) = .ok u ∧
      t = u.advance) ∨
    (∃ p, t = s.setPc p ∧
      (p = s.pc + 1 ∨
       (∃ rs1 rs2 imm, i = .beq rs1 rs2 imm ∧ p = s.branchTarget s.cfg.immExt.beq imm) ∨
       (∃ rs1 rs2 imm, i = .blt rs1 rs2 imm ∧ p = s.branchTarget s.cfg.immExt.blt imm) ∨
       (∃ rs1 rs2 imm, i = .bgt rs1 rs2 imm ∧ p = s.branchTarget s.cfg.immExt.bgt imm) ∨
       (∃ rs1, i = .jmp rs1 ∧ p = s.readReg rs1))) ∨
    (∃ rs1, i = .jal rs1 ∧ t = (s.writeReg s.cfg.raIndex s.nextPc).setPc (s.readReg rs1)) := by
  cases i
  case div =>
    simp only [exec, execDiv] at h
    split_ifs at h
    · cases h
    · injection h with h
      exact .inl ⟨_, _, rfl, by simp, h.symm⟩
  case divc =>
    simp only [exec, execDivc] at h
    split at h
    · cases h
    · injection h with h
      exact .inl ⟨_, _, rfl, by simp, h.symm⟩
  case lw =>
    simp only [exec, execLw] at h
    split at h
    · cases h
    · injection h with h
      exact .inl ⟨_, _, rfl, by simp, h.symm⟩
  case sw =>
    simp only [exec, execSw] at h
    split at h
    · cases h
    · injection h with h
      exact .inr (.inl ⟨_, _, _, _, rfl, by assumption, h.symm⟩)
  case beq =>
    simp only [exec, execBeq, State.branch_eq] at h
    injection h with h
    exact .inr (.inr (.inl ⟨_, h.symm, by split_ifs <;> simp⟩))
  case blt =>
    simp only [exec, execBlt, State.branch_eq] at h
    injection h with h
    exact .inr (.inr (.inl ⟨_, h.symm, by split_ifs <;> simp⟩))
  case bgt =>
    simp only [exec, execBgt, State.branch_eq] at h
    injection h with h
    exact .inr (.inr (.inl ⟨_, h.symm, by split_ifs <;> simp⟩))
  case jmp =>
    injection h with h
    exact .inr (.inr (.inl ⟨_, h.symm, by simp⟩))
  case jal =>
    injection h with h
    exact .inr (.inr (.inr ⟨_, rfl, h.symm⟩))
  all_goals
    injection h with h
    exact .inl ⟨_, _, rfl, by simp, h.symm⟩

/-- A step with a next state runs the instruction it fetched, from an unmarked state not at `HALT_PC`. -/
theorem step_next {s t : State} (h : step s = .next t) :
    ∃ i, s.faultMark = none ∧ s.atHalt = false ∧ s.fetchInstr = .ok i ∧ exec i s = .next t := by
  unfold step at h
  split at h
  · cases h
  · rename_i hm
    split_ifs at h with hh
    split at h
    · cases h
    · exact ⟨_, hm, by simpa using hh, by assumption, h⟩

end Sys2Proof.Machine
end

