-- ==== Sys2Proof/Laws/PerInstr.lean ====
section
/-! SUPPORT. One lemma per instruction: the word an assembler writes for it is 0 in every field it does
not use (R67 (a)). -/

namespace Sys2Proof.Laws.UnusedZero

/-- The encoded word has no bit in the instruction's `strict_zero_mask`. -/
def Statement (i : Instr) : Prop := encode i &&& unusedMask i = 0

section
variable (op : BitVec 5) (rs1 rs2 rd : RegNum) (imm : Imm12)

theorem and_low : layoutWord op rs1 rs2 rd 0 &&& 0x00000FFF = 0 := by
  rw [mask_low, layoutWord_and]; exact (layoutWord_eq_zero _ _ _ _ _).2 (by simp)

theorem and_rs2 : layoutWord op rs1 0 rd imm &&& 0x003E0000 = 0 := by
  rw [mask_rs2, layoutWord_and]; exact (layoutWord_eq_zero _ _ _ _ _).2 (by simp)

theorem and_rd : layoutWord op rs1 rs2 0 imm &&& 0x0001F000 = 0 := by
  rw [mask_rd, layoutWord_and]; exact (layoutWord_eq_zero _ _ _ _ _).2 (by simp)

theorem and_rs2_rd_low : layoutWord op rs1 0 0 0 &&& 0x003FFFFF = 0 := by
  rw [mask_rs2_rd_low, layoutWord_and]; exact (layoutWord_eq_zero _ _ _ _ _).2 (by simp)

theorem and_rs2_low : layoutWord op rs1 0 rd 0 &&& 0x003E0FFF = 0 := by
  rw [mask_rs2_low, layoutWord_and]; exact (layoutWord_eq_zero _ _ _ _ _).2 (by simp)

end

theorem add (rd : RegNum) (rs1 : RegNum) (rs2 : RegNum) : Statement (.add rd rs1 rs2) :=
  and_low _ _ _ _

theorem addi (rd : RegNum) (rs1 : RegNum) (imm : Imm12) : Statement (.addi rd rs1 imm) :=
  and_rs2 _ _ _ _

theorem sub (rd : RegNum) (rs1 : RegNum) (rs2 : RegNum) : Statement (.sub rd rs1 rs2) :=
  and_low _ _ _ _

theorem mul (rd : RegNum) (rs1 : RegNum) (rs2 : RegNum) : Statement (.mul rd rs1 rs2) :=
  and_low _ _ _ _

theorem div (rd : RegNum) (rs1 : RegNum) (rs2 : RegNum) : Statement (.div rd rs1 rs2) :=
  and_low _ _ _ _

theorem and (rd : RegNum) (rs1 : RegNum) (rs2 : RegNum) : Statement (.and rd rs1 rs2) :=
  and_low _ _ _ _

theorem or (rd : RegNum) (rs1 : RegNum) (rs2 : RegNum) : Statement (.or rd rs1 rs2) :=
  and_low _ _ _ _

theorem andi (rd : RegNum) (rs1 : RegNum) (imm : Imm12) : Statement (.andi rd rs1 imm) :=
  and_rs2 _ _ _ _

theorem sll (rd : RegNum) (rs1 : RegNum) (imm : Imm12) : Statement (.sll rd rs1 imm) :=
  and_rs2 _ _ _ _

theorem srl (rd : RegNum) (rs1 : RegNum) (imm : Imm12) : Statement (.srl rd rs1 imm) :=
  and_rs2 _ _ _ _

theorem lw (rd : RegNum) (rs1 : RegNum) (imm : Imm12) : Statement (.lw rd rs1 imm) :=
  and_rs2 _ _ _ _

theorem sw (rs2 : RegNum) (rs1 : RegNum) (imm : Imm12) : Statement (.sw rs2 rs1 imm) :=
  and_rd _ _ _ _

theorem divc (rd : RegNum) (rs1 : RegNum) (rs2 : RegNum) : Statement (.divc rd rs1 rs2) :=
  and_low _ _ _ _

theorem beq (rs1 : RegNum) (rs2 : RegNum) (imm : Imm12) : Statement (.beq rs1 rs2 imm) :=
  and_rd _ _ _ _

theorem blt (rs1 : RegNum) (rs2 : RegNum) (imm : Imm12) : Statement (.blt rs1 rs2 imm) :=
  and_rd _ _ _ _

theorem bgt (rs1 : RegNum) (rs2 : RegNum) (imm : Imm12) : Statement (.bgt rs1 rs2 imm) :=
  and_rd _ _ _ _

theorem jmp (rs1 : RegNum) : Statement (.jmp rs1) :=
  and_rs2_rd_low _ _

theorem jal (rs1 : RegNum) : Statement (.jal rs1) :=
  and_rs2_rd_low _ _

theorem addc (rd : RegNum) (rs1 : RegNum) (rs2 : RegNum) : Statement (.addc rd rs1 rs2) :=
  and_low _ _ _ _

theorem subc (rd : RegNum) (rs1 : RegNum) (rs2 : RegNum) : Statement (.subc rd rs1 rs2) :=
  and_low _ _ _ _

theorem mulc (rd : RegNum) (rs1 : RegNum) (rs2 : RegNum) : Statement (.mulc rd rs1 rs2) :=
  and_low _ _ _ _

theorem abs (rd : RegNum) (rs1 : RegNum) : Statement (.abs rd rs1) :=
  and_rs2_low _ _ _

theorem conj (rd : RegNum) (rs1 : RegNum) : Statement (.conj rd rs1) :=
  and_rs2_low _ _ _

end Sys2Proof.Laws.UnusedZero
end

