-- ==== Sys2Proof/Tests/Slice0.lean ====
section
/-! SUPPORT. Tests. Expected words and results are those of spec/95_test_vectors.md (section numbers in
the comments) or of the rule cited; the `witness_` theorems show states that meet the hypotheses of the
statement they are named after. -/

open Sys2Proof Sys2Proof.Machine Sys2Proof.Safety

namespace Sys2Proof.Tests

/-! ## Helpers -/

/-- The reset state with the given registers and pc, under the given parameters. -/
def stateWith (cfg : Config) (pc : Word) (regs : List (RegNum × Word)) : State :=
  regs.foldl (fun s p => s.writeReg p.1 p.2) (withConfig (State.reset.setPc pc) cfg)

/-- The same under the default parameters. -/
def at0 (regs : List (RegNum × Word)) : State := stateWith Config.default 0 regs

/-- A register after a step that runs the given word at the pc. -/
def regAfter (w : Nat) (s : State) (r : RegNum) : Option Word :=
  match step (s.withFetchWord 32 w) with
  | .next t => some (t.readReg r)
  | _ => none

/-- The pc after a step that runs the given word at the pc. -/
def pcAfter (w : Nat) (s : State) : Option Word :=
  match step (s.withFetchWord 32 w) with
  | .next t => some t.pc
  | _ => none

/-- A data word after a step that runs the given word at the pc. -/
def wordAfter (w : Nat) (s : State) (a : Word) : Option Word :=
  match step (s.withFetchWord 32 w) with
  | .next t => some (t.mem.readWord a)
  | _ => none

/-- The program and the listed memory after a step that runs the given word at the pc. -/
def storesAfter (w : Nat) (s : State) : Option (List Word × Memory) :=
  match step (s.withFetchWord 32 w) with
  | .next t => some (t.program, t.mem)
  | _ => none

/-- The fault of a step that runs the given word at the pc. -/
def faultAfter (w : Nat) (s : State) : Option Fault :=
  match step (s.withFetchWord 32 w) with
  | .fault f => some f
  | _ => none

/-- Data memory with one word stored. -/
def withWord (s : State) (a v : Word) : State := { s with mem := s.mem.writeWord a v }

/-- The fault a decoded word's error raises, if it raises one. -/
def decodeFault (strict : Bool) (w : Word) : Option Fault :=
  match decode strict w with
  | .error e => some (faultOfDecode e)
  | .ok _ => none

/-! ## Decoding (sections 1.1 and 2.1) -/

theorem test_decode_add : decodeTableWord 32 0x08861000 = some (.add 1 2 3) := by decide
theorem test_decode_addi : decodeTableWord 32 0x10801005 = some (.addi 1 2 5) := by decide
theorem test_decode_sub : decodeTableWord 32 0x18861000 = some (.sub 1 2 3) := by decide
theorem test_decode_mul : decodeTableWord 32 0x20861000 = some (.mul 1 2 3) := by decide
theorem test_decode_div : decodeTableWord 32 0x28861000 = some (.div 1 2 3) := by decide
theorem test_decode_and : decodeTableWord 32 0x30861000 = some (.and 1 2 3) := by decide
theorem test_decode_or : decodeTableWord 32 0x38861000 = some (.or 1 2 3) := by decide
theorem test_decode_andi : decodeTableWord 32 0x40801005 = some (.andi 1 2 5) := by decide
theorem test_decode_sll : decodeTableWord 32 0x48801005 = some (.sll 1 2 5) := by decide
theorem test_decode_srl : decodeTableWord 32 0x50801005 = some (.srl 1 2 5) := by decide
theorem test_decode_lw : decodeTableWord 32 0x58801005 = some (.lw 1 2 5) := by decide
theorem test_decode_sw : decodeTableWord 32 0x60820005 = some (.sw 1 2 5) := by decide
theorem test_decode_divc : decodeTableWord 32 0x68861000 = some (.divc 1 2 3) := by decide
theorem test_decode_beq : decodeTableWord 32 0x70440005 = some (.beq 1 2 5) := by decide
theorem test_decode_blt : decodeTableWord 32 0x78440005 = some (.blt 1 2 5) := by decide
theorem test_decode_bgt : decodeTableWord 32 0x80440005 = some (.bgt 1 2 5) := by decide
theorem test_decode_jmp : decodeTableWord 32 0x88400000 = some (.jmp 1) := by decide
theorem test_decode_jal : decodeTableWord 32 0x90400000 = some (.jal 1) := by decide
theorem test_decode_addc : decodeTableWord 32 0x98861000 = some (.addc 1 2 3) := by decide
theorem test_decode_subc : decodeTableWord 32 0xA0861000 = some (.subc 1 2 3) := by decide
theorem test_decode_mulc : decodeTableWord 32 0xA8861000 = some (.mulc 1 2 3) := by decide
theorem test_decode_abs : decodeTableWord 32 0xB0801000 = some (.abs 1 2) := by decide
theorem test_decode_conj : decodeTableWord 32 0xB8801000 = some (.conj 1 2) := by decide

/-- The highest assigned opcode with both register fields all ones; the link register as an operand. -/
theorem test_decode_all_ones_fields :
    decodeTableWord 32 0xBFC1F000 = some (.conj 31 31) ∧
    decodeTableWord 32 0x97C00000 = some (.jal 31) := by decide

/-- The unassigned opcodes at the ends of their ranges (R66). -/
theorem test_illegal_opcodes :
    decodeFault true 0x00000000 = some (.illegalInstruction 0x00000000) ∧
    decodeFault true 0xC0000000 = some (.illegalInstruction 0xC0000000) ∧
    decodeFault false 0xFFFFFFFF = some (.illegalInstruction 0xFFFFFFFF) := by decide

/-- A 1 in an unused field of each shape (R67). -/
theorem test_reserved_encodings :
    decodeFault true 0x08443001 = some (.reservedEncoding 0x08443001) ∧
    decodeFault true 0x08443080 = some (.reservedEncoding 0x08443080) ∧
    decodeFault true 0x10422005 = some (.reservedEncoding 0x10422005) ∧
    decodeFault true 0x70441003 = some (.reservedEncoding 0x70441003) ∧
    decodeFault true 0x88400001 = some (.reservedEncoding 0x88400001) ∧
    decodeFault true 0xB0423000 = some (.reservedEncoding 0xB0423000) := by decide

/-- The same words under `STRICT_UNUSED` = false. -/
theorem test_lenient_decode :
    selectInstr 0x08443001 = some (.add 3 1 2) ∧ decodeFault false 0x08443001 = none ∧
    selectInstr 0xB0423000 = some (.abs 3 1) ∧ decodeFault false 0xB0423000 = none := by decide

/-! ## Well-formedness (93_implementation_defined.md U5, U13, U14) -/

theorem test_wellFormed_refuses_shift_of_32 :
    (Instr.sll 1 2 32).wellFormed Config.default = false ∧
    (Instr.srl 1 2 4095).wellFormed Config.default = false ∧
    (Instr.sll 1 2 31).wellFormed Config.default = true ∧
    (Instr.srl 1 2 31).wellFormed Config.default = true := by decide

theorem test_wellFormed_refuses_jal_of_ra :
    (Instr.jal 31).wellFormed Config.default = false ∧
    (Instr.jal 30).wellFormed Config.default = true := by decide

theorem test_avoidsRegZero_refuses_register_zero :
    (Instr.add 0 1 2).avoidsRegZero Config.default = false ∧
    (Instr.add 3 0 2).avoidsRegZero Config.default = false ∧
    (Instr.add 3 1 0).avoidsRegZero Config.default = false ∧
    (Instr.jal 1).avoidsRegZero { Config.default with raIndex := 0 } = false ∧
    (Instr.add 3 1 2).avoidsRegZero Config.default = true := by decide

/-! ## Integer arithmetic (section 2.2) -/

theorem test_add_wraps :
    regAfter 0x08443000 (at0 [(1, 0xFFFFFFFF), (2, 1)]) 3 = some 0 := by decide
theorem test_add_same_register :
    regAfter 0x08421000 (at0 [(1, 0x80000000)]) 1 = some 0 := by decide
theorem test_addi_negative :
    regAfter 0x10402FFF (at0 [(1, 10)]) 2 = some 9 := by decide
theorem test_addi_zero_extended :
    regAfter 0x10402FFF
      (stateWith { Config.default with immExt := { ImmExt.default with addi := .zero } } 0 [(1, 10)]) 2 =
      some 0x00001009 := by decide
theorem test_sub_negative_result :
    regAfter 0x18443000 (at0 [(1, 5), (2, 7)]) 3 = some 0xFFFFFFFE := by decide
theorem test_mul_keeps_low_half :
    regAfter 0x20443000 (at0 [(1, 0x80000000), (2, 0xFFFFFFFF)]) 3 = some 0x80000000 := by decide
theorem test_div_truncates_toward_zero :
    regAfter 0x28443000 (at0 [(1, 0xFFFFFFF9), (2, 2)]) 3 = some 0xFFFFFFFD ∧
    regAfter 0x28443000 (at0 [(1, 0x80000000), (2, 0xFFFFFFFF)]) 3 = some 0x80000000 ∧
    faultAfter 0x28443000 (at0 [(1, 5), (2, 0)]) = some .divideByZero := by decide
/-- Section 4: the other two readings of `DIV_FN`. -/
theorem test_div_other_readings :
    regAfter 0x28443000 (stateWith { Config.default with divFn := .unsigned } 0
      [(1, 0xFFFFFFF9), (2, 2)]) 3 = some 0x7FFFFFFC ∧
    regAfter 0x28443000 (stateWith { Config.default with divFn := .floor } 0
      [(1, 0xFFFFFFF9), (2, 2)]) 3 = some 0xFFFFFFFC := by decide

/-! ## Logic and shifts (section 2.3) -/

theorem test_and :
    regAfter 0x30443000 (at0 [(1, 0xF0F0F0F0), (2, 0xFF00FF00)]) 3 = some 0xF000F000 := by decide
theorem test_or :
    regAfter 0x38443000 (at0 [(1, 0xF0F0F0F0), (2, 0x0F0F0000)]) 3 = some 0xFFFFF0F0 := by decide
theorem test_andi_zero_extends :
    regAfter 0x40402FFF (at0 [(1, 0xFFFFFFFF)]) 2 = some 0x00000FFF := by decide
theorem test_andi_sign_extended :
    regAfter 0x40402FFF
      (stateWith { Config.default with immExt := { ImmExt.default with andi := .sign } } 0
        [(1, 0xFFFFFFFF)]) 2 = some 0xFFFFFFFF := by decide
theorem test_sll :
    regAfter 0x4840201F (at0 [(1, 3)]) 2 = some 0x80000000 ∧
    regAfter 0x48402020 (at0 [(1, 0xFFFFFFFF)]) 2 = some 0 := by decide
theorem test_sll_mod32 :
    regAfter 0x48402020 (stateWith { Config.default with shiftMode := .mod32 } 0
      [(1, 0xFFFFFFFF)]) 2 = some 0xFFFFFFFF := by decide
theorem test_srl :
    regAfter 0x5040201F (at0 [(1, 0x80000000)]) 2 = some 1 ∧
    regAfter 0x50402FFF (at0 [(1, 0xFFFFFFFF)]) 2 = some 0 := by decide

/-! ## Load and store (section 2.4) -/

theorem test_lw_negative_displacement :
    regAfter 0x58402FFF (withWord (at0 [(1, 100)]) 99 0x11223344) 2 = some 0x11223344 := by decide
theorem test_lw_wraps_and_range :
    regAfter 0x58402001 (withWord (at0 [(1, 0xFFFFFFFF)]) 0 0xAAAAAAAA) 2 = some 0xAAAAAAAA ∧
    faultAfter 0x58402004 (stateWith { Config.default with dmemWords := 1024 } 0 [(1, 1020)]) =
      some (.dataAddressOutOfRange 1024) ∧
    regAfter 0x58402004 (withWord (stateWith { Config.default with dmemWords := 1024 } 0 [(1, 1019)])
      1023 7) 2 = some 7 := by decide
/-- The last clause: storing what an unlisted word reads as leaves nothing listed. -/
theorem test_sw :
    wordAfter 0x60440FFC (at0 [(1, 100), (2, 0xDEADBEEF)]) 96 = some 0xDEADBEEF ∧
    wordAfter 0x60420000 (at0 [(1, 9)]) 9 = some 9 ∧
    storesAfter 0x60440000 (withWord (at0 [(1, 9)]) 9 5) = some ([0x60440000], []) := by decide
/-- Section 4: under `UNIFIED_MEMORY` a store reaches the program. -/
theorem test_sw_unified :
    storesAfter 0x60440000 (stateWith { Config.default with unifiedMemory := true } 0
      [(1, 0), (2, 0x1230)]) = some ([0x00001230], []) := by decide

/-! ## Control transfer (section 2.5) -/

theorem test_beq :
    pcAfter 0x70440FF5 (stateWith Config.default 10 [(1, 5), (2, 5)]) = some 0 ∧
    pcAfter 0x70440003 (stateWith Config.default 10 [(1, 5), (2, 6)]) = some 11 := by decide
theorem test_blt_signed :
    pcAfter 0x78440003 (stateWith Config.default 10 [(1, 0xFFFFFFFF), (2, 1)]) = some 14 ∧
    pcAfter 0x78440003 (stateWith Config.default 10 [(1, 1), (2, 0xFFFFFFFF)]) = some 11 ∧
    pcAfter 0x78440003 (stateWith Config.default 10 [(1, 5), (2, 5)]) = some 11 := by decide
theorem test_blt_unsigned :
    pcAfter 0x78440003 (stateWith { Config.default with cmpSigned := false } 10
      [(1, 0xFFFFFFFF), (2, 1)]) = some 11 := by decide
theorem test_bgt :
    pcAfter 0x80440003 (stateWith Config.default 10 [(1, 1), (2, 0xFFFFFFFF)]) = some 14 ∧
    pcAfter 0x80440003 (stateWith Config.default 10 [(1, 5), (2, 5)]) = some 11 ∧
    pcAfter 0x804407FF (at0 [(1, 6), (2, 5)]) = some 2048 := by decide
theorem test_jmp : pcAfter 0x88400000 (stateWith Config.default 3 [(1, 0x40)]) = some 64 := by decide
theorem test_jal :
    pcAfter 0x90400000 (stateWith Config.default 3 [(1, 0x40)]) = some 64 ∧
    regAfter 0x90400000 (stateWith Config.default 3 [(1, 0x40)]) 31 = some 4 ∧
    regAfter 0x90400000 (stateWith { Config.default with raIndex := 7 } 3 [(1, 0x40)]) 7 = some 4 := by
  decide
theorem test_jal_of_ra :
    pcAfter 0x97C00000 (stateWith Config.default 3 [(31, 0x40)]) = some 64 ∧
    regAfter 0x97C00000 (stateWith Config.default 3 [(31, 0x40)]) 31 = some 4 := by decide

/-! ## Complex numbers (section 2.6) -/

theorem test_addc_no_carry :
    regAfter 0x98443000 (at0 [(1, 0x0000FFFF), (2, 0x00000001)]) 3 = some 0 := by decide
/-- D23: a saturating setting of `CPLX_COMPONENT`, on both halves and in both directions. -/
theorem test_addc_saturates :
    regAfter 0x98443000 (stateWith { Config.default with cplxComponent := .saturate } 0
      [(1, 0x7FFF8000), (2, 0x0001FFFF)]) 3 = some 0x7FFF8000 := by decide
theorem test_subc_no_borrow :
    regAfter 0xA0443000 (at0 [(1, 0x80000000), (2, 0x00010001)]) 3 = some 0x7FFFFFFF := by decide
theorem test_mulc :
    regAfter 0xA8443000 (at0 [(1, 0x00030004), (2, 0x0001FFFE)]) 3 = some 0x000BFFFE ∧
    regAfter 0xA8443000 (at0 [(1, 0x80008000), (2, 0x80008000)]) 3 = some 0 := by decide
theorem test_divc :
    regAfter 0x68443000 (at0 [(1, 0xFFF9FFFF), (2, 0x00020000)]) 3 = some 0xFFFD0000 ∧
    regAfter 0x68443000 (at0 [(1, 0x00010000), (2, 0x00000001)]) 3 = some 0x0000FFFF ∧
    faultAfter 0x68443000 (at0 [(1, 7), (2, 0)]) = some .complexDivideByZero := by decide
theorem test_abs :
    regAfter 0xB0403000 (at0 [(1, 0x80008000)]) 3 = some 0xB5040000 ∧
    regAfter 0xB0403000 (at0 [(1, 0x00010001)]) 3 = some 0x00010000 := by decide
theorem test_abs_real_low :
    regAfter 0xB0403000 (stateWith { Config.default with cplxRealHi := false } 0 [(1, 0x00030004)]) 3 =
      some 5 := by decide
theorem test_conj :
    regAfter 0xB8403000 (at0 [(1, 0xFFFF8000)]) 3 = some 0xFFFF8000 ∧
    regAfter 0xB8403000 (at0 [(1, 0x0005FFF9)]) 3 = some 0x00050007 := by decide
theorem test_conj_real_low :
    regAfter 0xB8403000 (stateWith { Config.default with cplxRealHi := false } 0 [(1, 0x00030004)]) 3 =
      some 0xFFFD0004 := by decide

/-! ## The machine -/

/-- Section 4, last row. -/
theorem test_register_zero :
    regAfter 0x10400005 (at0 [(1, 1)]) 0 = some 6 ∧
    regAfter 0x10400005 (stateWith { Config.default with r0Hardwired := true } 0 [(1, 1)]) 0 =
      some 0 := by decide

/-- The ends of fetch: one past the program the run is over (R162), further on it faults (R53), and a
marked state answers its mark (R141). -/
theorem test_fetch_ends :
    step (State.launch Config.default [0x08443000] State.reset.regs []) =
      exec (.add 3 1 2) (State.launch Config.default [0x08443000] State.reset.regs []) ∧
    step ((State.launch Config.default [0x08443000] State.reset.regs []).setPc 1) = .refused .runOver ∧
    step ((State.launch Config.default [0x08443000] State.reset.regs []).setPc 2) =
      .fault (.fetchOutOfRange 2) ∧
    step (State.reset.markFault .divideByZero) = .fault .divideByZero := ⟨rfl, rfl, rfl, rfl⟩

/-- R71: lines of the source's form. -/
theorem test_asmText :
    asmText ImmExt.default (.addi 2 1 0xFFF) = "addi $2, $1, -1" ∧
    asmText ImmExt.default (.andi 2 1 0xFFF) = "andi $2, $1, 4095" ∧
    asmText ImmExt.default (.sw 2 1 4) = "sw $2, $1, 4" ∧
    asmText ImmExt.default (.jmp 31) = "jmp $31" := by decide

/-! ## Witnesses -/

theorem witness_StrictDecodeReadsOnlyEncodings : decode true 0x08861000 = .ok (.add 1 2 3) := rfl

/-- The least and the greatest opcode of the map. -/
theorem witness_OpcodeSelectsInstruction :
    decode false 0x08000FFF = .ok (.add 0 0 0) ∧ (0x08000FFF : Word).toNat / 2 ^ 27 = 1 ∧
    decode true 0xBFC1F000 = .ok (.conj 31 31) ∧ (0xBFC1F000 : Word).toNat / 2 ^ 27 = 23 :=
  ⟨rfl, rfl, rfl, rfl⟩

theorem witness_LenientDecodeIgnoresUnusedBits :
    decode false 0x08443001 = .ok (.add 3 1 2) ∧
    (0x08443001 : Word) &&& ~~~unusedMask (.add 3 1 2) = encode (.add 3 1 2) := ⟨rfl, rfl⟩

/-- A state about to run the one word of its program. -/
def oneWord (w : Word) (s : State) : State := { s with program := [w] }

theorem witness_StepRunsDecodedInstruction :
    (oneWord 0x08443000 State.reset).faultMark = none ∧
    (oneWord 0x08443000 State.reset).pc.toNat ≠ (oneWord 0x08443000 State.reset).haltAddr ∧
    (oneWord 0x08443000 State.reset).program[0]? = some 0x08443000 ∧
    decode true 0x08443000 = .ok (.add 3 1 2) := ⟨rfl, by decide, rfl, rfl⟩

theorem witness_PlacedWordIsFetchedNext :
    decode State.reset.cfg.strictUnused (BitVec.ofNat 32 (0x08443000 % 2 ^ 32)) = .ok (.add 3 1 2) := rfl

theorem witness_FaultsArePreciseAndFinal :
    step (oneWord 0 State.reset) = .fault (.illegalInstruction 0) ∧
    step (State.reset.markFault .divideByZero) = .fault .divideByZero := ⟨rfl, rfl⟩

/-- A store under `R0_HARDWIRED_ZERO`, in a state that meets the invariant. -/
theorem witness_StepKeepsInvariant :
    let s := oneWord 0x60440004 (stateWith { Config.default with r0Hardwired := true } 0 [(1, 100), (2, 7)])
    s.Inv ∧ ∃ t, step s = .next t := ⟨by decide, _, rfl⟩

theorem witness_CanonicalMemoryIsItsBytes :
    Memory.wf (Memory.writeByte [] 4 7) ∧ Memory.wf [(4, 7)] ∧
    ∀ a, Memory.readByte (Memory.writeByte [] 4 7) a = Memory.readByte [(4, 7)] a :=
  ⟨by decide, by decide, fun _ => rfl⟩

theorem witness_StepKeepsProgram :
    (∃ t, step (oneWord 0x60440004 State.reset) = .next t) ∧ State.reset.cfg.unifiedMemory = false :=
  ⟨⟨_, rfl⟩, rfl⟩

/-- The whole-machine rules' hypotheses, for an instruction of each kind. -/
theorem witness_exec_next :
    (∃ t, exec (.add 3 1 2) State.reset = .next t) ∧ (∃ t, exec (.sw 2 1 0) State.reset = .next t) ∧
    (∃ t, exec (.beq 1 1 5) State.reset = .next t) ∧ (∃ t, exec (.jal 1) State.reset = .next t) ∧
    (Instr.add 3 1 2).dest State.reset.cfg ≠ some 4 :=
  ⟨⟨_, rfl⟩, ⟨_, rfl⟩, ⟨_, rfl⟩, ⟨_, rfl⟩, by decide⟩

theorem witness_OutcomeDependsOnSourcesOnly :
    let s := at0 [(1, 5)]
    let s' := at0 [(1, 5), (4, 9)]
    s.pc = s'.pc ∧ s.mem = s'.mem ∧ s.program = s'.program ∧ s.cfg = s'.cfg ∧ s ≠ s' ∧
      ∀ r ∈ (Instr.add 3 1 2).sources, s.readReg r = s'.readReg r := by decide

theorem witness_DivResult : (at0 [(1, 0x80000000), (2, 0xFFFFFFFF)]).readReg 2 ≠ 0 := by decide

theorem witness_ZeroDivisorsFault :
    (at0 [(1, 5)]).readReg 2 = 0 ∧ (at0 [(1, 5)]).cfg.divcFn = .truncQuotient := by decide

theorem witness_DivReadingsAgreeOnNonNegatives :
    let s := at0 [(1, 0x7FFFFFFF), (2, 0x7FFFFFFF)]
    (s.readReg 1).toNat < 2 ^ 31 ∧ (s.readReg 2).toNat < 2 ^ 31 ∧ s.readReg 2 ≠ 0 ∧
      s.cfg.divFn ≠ .free := by decide

/-- A memory of 1024 words: the last address is inside it, the next one outside (R42). -/
theorem witness_LwResult_SwResult_OutOfRangeAccessFaults :
    let s := stateWith { Config.default with dmemWords := 1024 } 0 [(1, 1019), (2, 1020)]
    (s.effectiveAddress s.cfg.immExt.lw 1 4).toNat = 1023 ∧ s.cfg.dmemWords = 1024 ∧
    (s.effectiveAddress s.cfg.immExt.sw 2 4).toNat = 1024 := by decide

/-- `UNIFIED_MEMORY` and a program of one word: address 0 is the program's, address 1 is not. -/
theorem witness_LwResult_unified :
    let s := oneWord 5 (stateWith { Config.default with unifiedMemory := true } 0 [(1, 0)])
    (s.effectiveAddress s.cfg.immExt.lw 1 0).toNat < s.program.length ∧
    ¬ (s.effectiveAddress s.cfg.immExt.lw 1 1).toNat < s.program.length := by decide

theorem witness_StoreChangesOneWord :
    (∃ t, State.reset.dataWrite 0xFFFFFFFF 7 = .ok t) ∧ (0 : Word) ≠ 0xFFFFFFFF := ⟨⟨_, rfl⟩, by decide⟩

theorem witness_LoadAfterStoreGivesStoredWord :
    ∃ t, exec (.sw 2 1 4) (at0 [(1, 100), (2, 7)]) = .next t ∧
      t.effectiveAddress t.cfg.immExt.lw 1 4 =
        (at0 [(1, 100), (2, 7)]).effectiveAddress Config.default.immExt.sw 1 4 :=
  ⟨_, rfl, by decide⟩

theorem witness_BgtIsBltWithOperandsExchanged :
    State.reset.cfg.immExt.bgt = State.reset.cfg.immExt.blt := rfl

theorem witness_ReturnGoesAfterCall :
    ¬ (State.reset.cfg.r0Hardwired = true ∧ State.reset.cfg.raIndex = 0) ∧
    ∃ t, exec (.jal 1) State.reset = .next t ∧
      (t.setPc 77).readReg State.reset.cfg.raIndex = t.readReg State.reset.cfg.raIndex :=
  ⟨by decide, _, rfl, rfl⟩

/-- The farthest labels a branch at address 5000 reaches, and the first beyond them (R72). -/
theorem witness_BranchReachesItsLabel :
    branchOffset 7048 5000 = some 2047 ∧ branchOffset 2953 5000 = some (-2048) ∧
    branchOffset 7049 5000 = none ∧ branchOffset 2952 5000 = none ∧
    State.reset.cfg.immExt.beq = .sign := by decide

theorem witness_Idioms : State.reset.cfg.immExt.andi = .zero := rfl

theorem witness_MulcResult :
    State.reset.cfg.mulcFn = .intProduct ∧ { Config.default with mulcFn := .free }.mulcFn = .free :=
  ⟨rfl, rfl⟩

theorem witness_DivcResult :
    State.reset.cfg.divcFn = .truncQuotient ∧ (at0 [(2, 0x80008000)]).readReg 2 ≠ 0 ∧
    { Config.default with divcFn := .free }.divcFn = .free := by decide

theorem witness_AbsResult :
    State.reset.cfg.absFn = .modulus ∧ { Config.default with absFn := .free }.absFn = .free := ⟨rfl, rfl⟩

/-- The imaginary part -32768 under the default setting, and -32767 under a saturating one. -/
theorem witness_ConjTwiceIsIdentity :
    ¬ (State.reset.cfg.r0Hardwired = true ∧ (3 : RegNum) = 0) ∧
    imOf true ((at0 [(1, 0x8000)]).readReg 1) = -32768 ∧
    (at0 [(1, 0x8000)]).cfg.cplxComponent = .wrap ∧
    imOf true ((stateWith { Config.default with cplxComponent := .saturate } 0
      [(1, 0x8001)]).readReg 1) ≠ -32768 ∧
    (∃ t, exec (.conj 3 1) (at0 [(1, 0x8000)]) = .next t) ∧
    ∃ t, exec (.conj 3 1) (stateWith { Config.default with cplxComponent := .saturate } 0
      [(1, 0x8001)]) = .next t :=
  ⟨by decide, by decide, by decide, by decide, ⟨_, rfl⟩, _, rfl⟩

theorem witness_AddcSubcResults_ConjResult : State.reset.cfg.cplxComponent = .wrap := rfl

/-- Sums at both ends of a half, and an instruction that puts no part in a half. -/
theorem witness_ComponentSettingMattersOnlyOnOverflow :
    (∀ n ∈ exactParts (at0 [(1, 0x7FFE8001), (2, 0x0001FFFF)]) (.addc 3 1 2), FitsHalf n) ∧
    exactParts (at0 [(1, 0x7FFE8001), (2, 0x0001FFFF)]) (.addc 3 1 2) = [32767, -32768] ∧
    exactParts State.reset (.add 3 1 2) = [] := by decide

theorem witness_RegisterFieldPositions :
    decode true 0x60820005 = .ok (.sw 1 2 5) ∧ registerFields (.sw 1 2 5) = (some 2, some 1, none) ∧
    decode true 0xBFC1F000 = .ok (.conj 31 31) ∧ registerFields (.conj 31 31) = (some 31, none, some 31) :=
  ⟨rfl, rfl, rfl, rfl⟩

theorem witness_ConservativeInstructionsIgnoreParameters :
    (Instr.sll 2 1 31).wellFormed State.reset.cfg = true ∧
    (Instr.sll 2 1 31).avoidsRegZero State.reset.cfg = true ∧
    (Instr.jal 30).wellFormed State.reset.cfg = true ∧
    (Instr.jal 30).avoidsRegZero State.reset.cfg = true := by decide

theorem witness_SmallImmediatesIgnoreExtension :
    ∀ imm, widenedImm (.addi 2 1 2047) = some imm → imm.toNat < 2048 := by
  intro imm h; cases h; decide

theorem witness_ComparisonReadingsAgree :
    let s := at0 [(1, 0x7FFFFFFF), (2, 0x7FFFFFFF)]
    ∀ rs1 rs2 imm, Instr.blt 1 2 3 = .blt rs1 rs2 imm ∨ Instr.blt 1 2 3 = .bgt rs1 rs2 imm →
      (s.readReg rs1).toNat < 2 ^ 31 ∧ (s.readReg rs2).toNat < 2 ^ 31 := by
  intro s rs1 rs2 imm h
  rcases h with h | h <;> cases h
  decide

end Sys2Proof.Tests
end

section
/-! The statements of 10_state.md: what the machine is at reset, what a step runs, and what every
instruction keeps, changes and depends on. -/

open Sys2Proof Sys2Proof.Machine Sys2Proof.Safety

namespace Sys2Proof.Machine

/-! ## The invariant under each update of the state -/

/-- The invariant does not speak of the pc. -/
theorem State.Inv.setPc {s : State} (h : s.Inv) (p : Word) : (s.setPc p).Inv := h

theorem State.Inv.advance {s : State} (h : s.Inv) : s.advance.Inv := h.setPc _

/-- A register write keeps the invariant: a write to a hardwired register 0 is discarded (R22). -/
theorem State.Inv.writeReg {s : State} (h : s.Inv) (r : RegNum) (v : Word) : (s.writeReg r v).Inv := by
  obtain ⟨hwf, hrange, hwords, hzero⟩ := h
  exact ⟨by simpa using hwf, by simpa using hrange, by simpa using hwords,
    State.writeReg_keeps_zero hzero r v⟩

/-- A completed `MemWrite` keeps the invariant: its four cells lie inside `DMEM_WORDS` (R42). -/
theorem State.Inv.dataWrite {s t : State} {ea v : Word} (h : s.Inv) (hw : s.dataWrite ea v = .ok t) :
    t.Inv := by
  obtain ⟨hwf, hrange, hwords, hzero⟩ := h
  obtain ⟨hlt, ⟨-, rfl⟩ | ⟨-, rfl⟩⟩ := State.dataWrite_ok hw
  · exact ⟨hwf, hrange, hwords, hzero⟩
  · refine ⟨Memory.wf_writeWord hwf ea v, fun c hc => ?_, hwords, hzero⟩
    rcases Memory.mem_writeWord hc with ⟨-, hcell⟩ | hold
    · show c.1 < 4 * s.cfg.dmemWords
      omega
    · exact hrange c hold

/-- Every instruction keeps the invariant, by the four forms a next state can have. -/
theorem exec_keeps_inv {i : Instr} {s t : State} (hs : s.Inv) (h : exec i s = .next t) : t.Inv := by
  obtain ⟨rd, v, -, -, rfl⟩ | ⟨_, _, _, u, -, hu, rfl⟩ | ⟨p, rfl, -⟩ | ⟨_, -, rfl⟩ := exec_next h
  · exact (hs.writeReg rd v).advance
  · exact (hs.dataWrite hu).advance
  · exact hs.setPc p
  · exact (hs.writeReg _ _).setPc _

/-! ## What a step runs -/

/-- Away from `HALT_PC` and with no fault marked, a step is the fetched instruction's meaning (R35). -/
theorem step_eq_exec {s : State} {i : Instr} (hm : s.faultMark = none)
    (hh : s.pc.toNat ≠ s.haltAddr) (hf : s.fetchInstr = .ok i) : step s = exec i s := by
  have hhalt : s.atHalt = false := decide_eq_false hh
  simp [step, hm, hhalt, hf]

/-- A pc inside the program is at `HALT_PC` only where the parameter names it (R162). -/
theorem State.pc_ne_haltAddr {s : State} (hp : s.pc.toNat < s.program.length)
    (hh : s.cfg.haltPc ≠ some s.pc) : s.pc.toNat ≠ s.haltAddr := by
  unfold State.haltAddr
  split
  · exact hp.ne
  · next a ha => exact fun e => hh (by rw [ha, BitVec.eq_of_toNat_eq e])

theorem configFetchingAt_haltPc_ne (cfg : Config) (a : Word) :
    (configFetchingAt cfg a).haltPc ≠ some a := by
  unfold configFetchingAt
  split
  · simp
  · assumption

@[simp] theorem configFetchingAt_strictUnused (cfg : Config) (a : Word) :
    (configFetchingAt cfg a).strictUnused = cfg.strictUnused := by
  unfold configFetchingAt
  split <;> rfl

theorem lt_length_placeWord (p : List Word) (a : Nat) (w : Word) : a < (placeWord p a w).length :=
  (List.getElem?_eq_some_iff.1 (placeWord_getElem? p a w)).1

/-- A word placed for the next fetch is not at `HALT_PC`. -/
theorem State.withFetchWord_pc_ne_haltAddr (s : State) (nbits w : Nat) :
    (s.withFetchWord nbits w).pc.toNat ≠ (s.withFetchWord nbits w).haltAddr :=
  State.pc_ne_haltAddr (lt_length_placeWord _ _ _) (configFetchingAt_haltPc_ne _ _)

/-- A word placed for the next fetch is the one that is fetched. -/
theorem State.withFetchWord_fetchInstr {s : State} {nbits w : Nat} {i : Instr}
    (h : decode s.cfg.strictUnused (BitVec.ofNat 32 (w % 2 ^ nbits)) = .ok i) :
    (s.withFetchWord nbits w).fetchInstr = .ok i :=
  (State.fetchInstr_ok_iff _ _).2
    ⟨_, placeWord_getElem? _ _ _, by simpa [State.withFetchWord] using h⟩

/-! ## Registers -/

/-- A store changes no register. -/
theorem State.readReg_of_dataWrite {s t : State} {ea v : Word} (h : s.dataWrite ea v = .ok t)
    (r : RegNum) : t.readReg r = s.readReg r := by
  obtain ⟨-, ⟨-, rfl⟩ | ⟨-, rfl⟩⟩ := State.dataWrite_ok h <;> exact State.readReg_congr rfl rfl r

/-- A store leaves the pc alone. -/
theorem State.pc_of_dataWrite {s t : State} {ea v : Word} (h : s.dataWrite ea v = .ok t) :
    t.pc = s.pc := by
  obtain ⟨-, ⟨-, rfl⟩ | ⟨-, rfl⟩⟩ := State.dataWrite_ok h <;> rfl

/-- An effective address depends on its base register alone (R41). -/
theorem State.effectiveAddress_congr {s s' : State} {rs1 : RegNum}
    (hr : s.readReg rs1 = s'.readReg rs1) (mode : ImmMode) (imm : Imm12) :
    s.effectiveAddress mode rs1 imm = s'.effectiveAddress mode rs1 imm := by
  simp only [State.effectiveAddress, hr]

/-- Every register reads 0 at reset (log entry 3). -/
theorem State.readReg_reset (r : RegNum) : State.reset.readReg r = 0 := by
  simp [State.readReg, State.reset, State.launch]

/-! ## Two states that differ in registers and fault mark only -/

/-- What every instruction may depend on besides the registers it reads: the pc, the memory, the program
and the parameters are those of the other state. -/
structure AgreeOffRegs (s s' : State) : Prop where
  pc : s.pc = s'.pc
  mem : s.mem = s'.mem
  program : s.program = s'.program
  cfg : s.cfg = s'.cfg

section
variable {s s' : State} (h : AgreeOffRegs s s')
include h

theorem AgreeOffRegs.inProgram_eq (ea : Word) : s.inProgram ea = s'.inProgram ea := by
  simp only [State.inProgram, h.cfg, h.program]

theorem AgreeOffRegs.dataRead_eq (ea : Word) : s.dataRead ea = s'.dataRead ea := by
  simp only [State.dataRead, h.inProgram_eq, h.cfg, h.program, h.mem]

/-- The same jump in both states agrees on everything but the registers. -/
theorem AgreeOffRegs.agreeOn_setPc {p p' : Word} (hp : p = p') :
    AgreeOn none (.next (s.setPc p)) (.next (s'.setPc p')) :=
  ⟨hp, h.mem, h.program, nofun⟩

/-- The same register write and jump in both states agrees on the register written. -/
theorem AgreeOffRegs.agreeOn_writeReg_setPc (rd : RegNum) {v v' p p' : Word} (hv : v = v')
    (hp : p = p') :
    AgreeOn (some rd) (.next ((s.writeReg rd v).setPc p)) (.next ((s'.writeReg rd v').setPc p')) := by
  refine ⟨hp, by simpa using h.mem, by simpa using h.program, ?_⟩
  rintro _ ⟨rfl⟩
  simp only [State.readReg_setPc, State.readReg_writeReg_same, h.cfg, hv]

theorem AgreeOffRegs.agreeOn_retire (rd : RegNum) {v v' : Word} (hv : v = v') :
    AgreeOn (some rd) (s.retire rd v) (s'.retire rd v') :=
  h.agreeOn_writeReg_setPc rd hv (by simp [h.pc])

theorem AgreeOffRegs.agreeOn_branch {taken taken' : Bool} {mode mode' : ImmMode} (imm : Imm12)
    (ht : taken = taken') (hm : mode = mode') :
    AgreeOn none (s.branch taken mode imm) (s'.branch taken' mode' imm) := by
  simp only [State.branch_eq, State.branchTarget, ht, hm, h.pc]
  exact h.agreeOn_setPc rfl

/-- The same instruction in both states, its sources reading the same, has the same outcome. -/
theorem AgreeOffRegs.agreeOn_exec {i : Instr} (hr : ∀ r ∈ i.sources, s.readReg r = s'.readReg r) :
    AgreeOn (i.dest s.cfg) (exec i s) (exec i s') := by
  cases i <;> simp only [Instr.sources, List.forall_mem_cons, List.not_mem_nil, false_implies,
    implies_true, and_true] at hr
  case div rd rs1 rs2 =>
    simp only [exec, execDiv, hr, h.cfg]
    split
    · rfl
    · exact h.agreeOn_retire rd rfl
  case divc rd rs1 rs2 =>
    simp only [exec, execDivc, hr, h.cfg]
    split
    · rfl
    · exact h.agreeOn_retire rd rfl
  case lw rd rs1 imm =>
    simp only [exec, execLw, State.effectiveAddress_congr hr, h.cfg, h.dataRead_eq]
    split
    · rfl
    · exact h.agreeOn_retire rd rfl
  case sw rs2 rs1 imm =>
    obtain ⟨hbase, hdata⟩ := hr
    simp only [exec, execSw_eq, State.effectiveAddress_congr hbase, hdata, h.cfg, h.inProgram_eq, h.pc,
      h.mem, h.program]
    by_cases hrange : s'.cfg.dmemWords ≤ (s'.effectiveAddress s'.cfg.immExt.sw rs1 imm).toNat
    · simp only [if_pos hrange, AgreeOn]
    · by_cases hprog : s'.inProgram (s'.effectiveAddress s'.cfg.immExt.sw rs1 imm) = true <;>
        simp [hrange, hprog, AgreeOn, Instr.dest]
  case beq => exact h.agreeOn_branch _ (by simp only [hr]) (by rw [h.cfg])
  case blt => exact h.agreeOn_branch _ (by simp only [hr, h.cfg]) (by rw [h.cfg])
  case bgt => exact h.agreeOn_branch _ (by simp only [hr, h.cfg]) (by rw [h.cfg])
  case jmp => exact h.agreeOn_setPc hr
  case jal =>
    simp only [exec, execJal, h.cfg]
    exact h.agreeOn_writeReg_setPc _ (by simp [h.pc]) hr
  all_goals exact h.agreeOn_retire _ (by simp only [hr, h.cfg])

end

end Sys2Proof.Machine

namespace Sys2Proof.Proofs

/-- Settles O15: a step runs one instruction, and every instruction keeps the invariant. -/
theorem stepKeepsInvariant : Obligations.StepKeepsInvariant := by
  intro s t hs h
  obtain ⟨i, -, -, -, hexec⟩ := step_next h
  exact exec_keeps_inv hs hexec

/-- Settles O9: the placed word is fetched, unmarked and away from `HALT_PC`. -/
theorem placedWordIsFetchedNext : Obligations.PlacedWordIsFetchedNext := fun s nbits w _ h =>
  step_eq_exec rfl (s.withFetchWord_pc_ne_haltAddr nbits w) (State.withFetchWord_fetchInstr h)

/-- Settles O19, by the four forms a next state can have. -/
theorem onlyControlTransfersMovePcElsewhere : Obligations.OnlyControlTransfersMovePcElsewhere := by
  intro i s t h
  obtain ⟨rd, v, -, -, rfl⟩ | ⟨_, _, _, u, -, hu, rfl⟩ | ⟨p, rfl, hp⟩ | ⟨rs1, hi, rfl⟩ := exec_next h
  · left; simp
  · left; simp [State.pc_of_dataWrite hu]
  · rcases hp with hnext | hbeq | hblt | hbgt | ⟨rs1, hi, rfl⟩
    · exact .inl hnext
    · exact .inr (.inl hbeq)
    · exact .inr (.inr (.inl hblt))
    · exact .inr (.inr (.inr (.inl hbgt)))
    · exact .inr (.inr (.inr (.inr ⟨rs1, .inl hi, rfl⟩)))
  · exact .inr (.inr (.inr (.inr ⟨rs1, .inr hi, rfl⟩)))

/-- Settles O20: the only register a next state has written is the instruction's destination. -/
theorem onlyDestinationRegisterChanges : Obligations.OnlyDestinationRegisterChanges := by
  intro i s t h r hr
  obtain ⟨rd, v, hd, -, rfl⟩ | ⟨_, _, _, u, -, hu, rfl⟩ | ⟨p, rfl, -⟩ | ⟨rs1, rfl, rfl⟩ := exec_next h
  · exact s.readReg_writeReg_ne v fun e => hr (by rw [hd, e])
  · exact State.readReg_of_dataWrite hu r
  · exact s.readReg_setPc p r
  · exact s.readReg_writeReg_ne s.nextPc fun e => hr (by rw [e, Instr.dest])

/-- Settles O21: agreement off the registers and on the sources gives agreement of the outcomes. -/
theorem outcomeDependsOnSourcesOnly : Obligations.OutcomeDependsOnSourcesOnly :=
  fun _ _ _ hpc hmem hprogram hcfg hr => (AgreeOffRegs.mk hpc hmem hprogram hcfg).agreeOn_exec hr

/-- Settles O8, by the one equation of a step that fetches. -/
theorem stepRunsDecodedInstruction : Obligations.StepRunsDecodedInstruction :=
  fun s w i hm hh hw hd => step_eq_exec hm hh ((s.fetchInstr_ok_iff i).2 ⟨w, hw, hd⟩)

/-- Settles O13: registers by `State.readReg_reset`, every other field as `State.launch` writes it out. -/
theorem resetLeavesMachineReady : Obligations.ResetLeavesMachineReady :=
  ⟨rfl, rfl, rfl, State.readReg_reset, fun _ => rfl, rfl, fun _ _ _ _ => ⟨rfl, rfl⟩⟩

/-- Settles O14: no cell is listed, `DMEM_WORDS` is 2^32 and register 0 holds 0. -/
theorem resetMeetsInvariant : Obligations.ResetMeetsInvariant :=
  ⟨⟨List.Pairwise.nil, nofun⟩, nofun, le_rfl, fun _ => rfl⟩

end Sys2Proof.Proofs
end

section
/-! The statements of 20_memory.md: the canonical form of data memory, what a store changes and what
every other instruction leaves alone, and effective addresses. -/

open Sys2Proof Sys2Proof.Machine Sys2Proof.Safety

namespace Sys2Proof.Machine

/-! ## Data memory as its bytes -/

/-- A byte that reads otherwise than an unlisted one is listed. -/
theorem Memory.mem_of_readByte_ne_unlisted {m : Memory} {a : Nat} (h : m.readByte a ≠ Memory.unlisted) :
    (a, m.readByte a) ∈ m := by
  induction m with
  | nil => exact absurd rfl h
  | cons c rest ih =>
    obtain ⟨b, u⟩ := c
    by_cases hab : a = b
    · simp [Memory.readByte, hab]
    · simp only [Memory.readByte, if_neg hab] at h ⊢
      exact List.mem_cons_of_mem _ (ih h)

/-- With the addresses strictly rising, every listed cell is the one that is read at its address. -/
theorem Memory.readByte_of_mem {m : Memory} (hs : m.Pairwise (fun c d => c.1 < d.1)) {c : Host.Cell}
    (hc : c ∈ m) : m.readByte c.1 = c.2 := by
  induction m with
  | nil => cases hc
  | cons d rest ih =>
    obtain ⟨hd, hrest⟩ := List.pairwise_cons.1 hs
    rcases List.mem_cons.1 hc with rfl | hc
    · simp [Memory.readByte]
    · simpa [Memory.readByte, (hd c hc).ne'] using ih hrest hc

/-- The cells of a canonical memory are exactly the bytes that read otherwise than an unlisted one. -/
theorem Memory.mem_iff_readByte {m : Memory} (h : m.wf) (c : Host.Cell) :
    c ∈ m ↔ m.readByte c.1 = c.2 ∧ c.2 ≠ Memory.unlisted := by
  obtain ⟨hs, hlisted⟩ := h
  constructor
  · exact fun hc => ⟨Memory.readByte_of_mem hs hc, hlisted c hc⟩
  · rintro ⟨hread, hne⟩
    have hc := Memory.mem_of_readByte_ne_unlisted (hread ▸ hne)
    rwa [hread] at hc

/-- Canonical memories that read the same everywhere list the same cells, in the same order. -/
theorem Memory.eq_of_readByte_eq {m m' : Memory} (h : m.wf) (h' : m'.wf)
    (hread : ∀ a, m.readByte a = m'.readByte a) : m = m' := by
  have : Std.Asymm (fun c d : Host.Cell => c.1 < d.1) := ⟨fun _ _ => Nat.lt_asymm⟩
  refine h.1.eq_of_mem_iff h'.1 fun c => ?_
  rw [Memory.mem_iff_readByte h, Memory.mem_iff_readByte h', hread]

/-! ## MemWrite, then MemRead -/

/-- `MemRead` does not see the pc. -/
@[simp] theorem State.dataRead_advance (s : State) (ea : Word) : s.advance.dataRead ea = s.dataRead ea := rfl

/-- What no step changes (R31, R51): the parameters, the fault mark, the length of the program and, with
separate memories, the program. -/
def KeepsProgram (s t : State) : Prop :=
  t.cfg = s.cfg ∧ t.faultMark = s.faultMark ∧ t.program.length = s.program.length ∧
    (s.cfg.unifiedMemory = false → t.program = s.program)

theorem KeepsProgram.advance {s t : State} (h : KeepsProgram s t) : KeepsProgram s t.advance := h

theorem State.inProgram_eq_true (s : State) (ea : Word) :
    s.inProgram ea = true ↔ s.cfg.unifiedMemory = true ∧ ea.toNat < s.program.length := by
  simp [State.inProgram]

/-- A store to the program needs unified memory, and replaces one word in place. -/
theorem State.keepsProgram_of_dataWrite {s t : State} {ea v : Word} (h : s.dataWrite ea v = .ok t) :
    KeepsProgram s t := by
  obtain ⟨-, ⟨hprog, rfl⟩ | ⟨-, rfl⟩⟩ := State.dataWrite_ok h
  · obtain ⟨hunified, -⟩ := (s.inProgram_eq_true ea).1 hprog
    exact ⟨rfl, rfl, List.length_set .., by simp [hunified]⟩
  · exact ⟨rfl, rfl, rfl, fun _ => rfl⟩

/-- A store leaves the boundary between the program and data memory where it was. -/
theorem State.inProgram_of_dataWrite {s t : State} {ea v : Word} (h : s.dataWrite ea v = .ok t)
    (b : Word) : t.inProgram b = s.inProgram b := by
  obtain ⟨hcfg, -, hlen, -⟩ := State.keepsProgram_of_dataWrite h
  simp only [State.inProgram, hcfg, hlen]

/-- The word stored is read back whole at its address. -/
theorem State.dataRead_of_dataWrite_same {s t : State} {ea v : Word} (h : s.dataWrite ea v = .ok t) :
    t.dataRead ea = .ok v := by
  obtain ⟨hlt, hstored⟩ := State.dataWrite_ok h
  obtain ⟨hcfg, -⟩ := State.keepsProgram_of_dataWrite h
  rw [State.dataRead_of_lt (hcfg ▸ hlt), State.inProgram_of_dataWrite h]
  obtain ⟨hprog, rfl⟩ | ⟨hdata, rfl⟩ := hstored
  · obtain ⟨-, hlen⟩ := (s.inProgram_eq_true ea).1 hprog
    simp [hprog, hlen]
  · simp [hdata, Memory.readWord_writeWord_same]

/-- A read at another address answers what it answered before the store, a fault included (R40, R42). -/
theorem State.dataRead_of_dataWrite_ne {s t : State} {ea v b : Word} (h : s.dataWrite ea v = .ok t)
    (hb : b ≠ ea) : t.dataRead b = s.dataRead b := by
  have hin := State.inProgram_of_dataWrite h b
  obtain ⟨-, ⟨-, rfl⟩ | ⟨-, rfl⟩⟩ := State.dataWrite_ok h
  · have hne : ea.toNat ≠ b.toNat := fun e => hb (BitVec.eq_of_toNat_eq e.symm)
    simp only [State.dataRead, hin, List.getD_eq_getElem?_getD, List.getElem?_set_ne hne]
  · simp only [State.dataRead, hin, Memory.readWord_writeWord_ne s.mem v hb]

/-! ## LW and SW -/

/-- The widened IMM is the integer it stands for, truncated (R68). -/
theorem immOperand_eq_ofInt (mode : ImmMode) (imm : Imm12) :
    immOperand mode imm = BitVec.ofInt 32 (immInteger mode imm) := by
  cases mode with
  | sign => rfl
  | zero => rw [immInteger, BitVec.ofInt_natCast, BitVec.ofNat_toNat]; rfl

/-- An instruction that retires a value writes it to the register and changes nothing else. -/
theorem writesResult_of_retire {i : Instr} {s : State} {rd : RegNum} {v : Word}
    (h : exec i s = s.retire rd v) : WritesResult i s rd v := by
  have hreg : RegWritten s (s.writeReg rd v).advance rd v :=
    ⟨s.readReg_writeReg_same rd v, fun _ hr => s.readReg_writeReg_ne v hr⟩
  exact ⟨_, h, hreg, by simp, fun _ => by simp, by simp, by simp, by simp⟩

/-- LW completes with the word that `MemRead` answers (R101). -/
theorem writesResult_lw {s : State} {rd rs1 : RegNum} {imm : Imm12} {v : Word}
    (h : s.dataRead (s.effectiveAddress s.cfg.immExt.lw rs1 imm) = .ok v) :
    WritesResult (.lw rd rs1 imm) s rd v :=
  writesResult_of_retire (by simp only [exec, execLw, h])

/-- SW completes exactly where `MemWrite` does, in the state it leaves, advanced (R102). -/
theorem exec_sw_next_iff {s t : State} {rs2 rs1 : RegNum} {imm : Imm12} :
    exec (.sw rs2 rs1 imm) s = .next t ↔
      ∃ u, s.dataWrite (s.effectiveAddress s.cfg.immExt.sw rs1 imm) (s.readReg rs2) = .ok u ∧
        t = u.advance := by
  simp only [exec, execSw]
  cases s.dataWrite (s.effectiveAddress s.cfg.immExt.sw rs1 imm) (s.readReg rs2) with
  | error f => simp [raise]
  | ok u => simp [eq_comm]

/-! ## What every instruction keeps -/

/-- No instruction changes the parameters or the program's length, by the four forms of a next state. -/
theorem exec_keepsProgram {i : Instr} {s t : State} (h : exec i s = .next t) : KeepsProgram s t := by
  obtain ⟨rd, v, -, -, rfl⟩ | ⟨_, _, _, u, -, hu, rfl⟩ | ⟨p, rfl, -⟩ | ⟨_, -, rfl⟩ := exec_next h
  · simp [KeepsProgram]
  · exact (State.keepsProgram_of_dataWrite hu).advance
  · simp [KeepsProgram]
  · simp [KeepsProgram]

/-- Every form of a next state but SW's holds data memory and the program as they were (R45). -/
theorem exec_keeps_memory {i : Instr} {s t : State} (h : exec i s = .next t)
    (hsw : ∀ rs2 rs1 imm, i ≠ .sw rs2 rs1 imm) : t.mem = s.mem ∧ t.program = s.program := by
  obtain ⟨rd, v, -, -, rfl⟩ | ⟨rs2, rs1, imm, _, hi, -⟩ | ⟨p, rfl, -⟩ | ⟨_, -, rfl⟩ := exec_next h
  · simp
  · exact absurd hi (hsw rs2 rs1 imm)
  · simp
  · simp

end Sys2Proof.Machine

namespace Sys2Proof.Proofs

/-- Settles O16: a canonical memory's cells are determined by its bytes, and their order by their
addresses. -/
theorem canonicalMemoryIsItsBytes : Obligations.CanonicalMemoryIsItsBytes :=
  fun _ _ h h' hread => Memory.eq_of_readByte_eq h h' hread

/-- Settles O17: a step runs one instruction, and every instruction keeps the program. -/
theorem stepKeepsProgram : Obligations.StepKeepsProgram := by
  intro s t h
  obtain ⟨i, -, -, -, hexec⟩ := step_next h
  exact exec_keepsProgram hexec

/-- Settles O18: equal memories read the same at every byte. -/
theorem onlyStoreChangesMemory : Obligations.OnlyStoreChangesMemory := by
  intro i s t h hsw
  obtain ⟨hmem, hprogram⟩ := exec_keeps_memory h hsw
  exact ⟨hmem, fun a => by rw [hmem], hprogram⟩

/-- Settles O37, for a store to data memory and one to the program alike. -/
theorem storeChangesOneWord : Obligations.StoreChangesOneWord := fun _ _ _ _ _ h =>
  ⟨State.dataRead_of_dataWrite_same h, State.dataRead_of_dataWrite_ne h⟩

/-- Settles O38: the LW's `MemRead` answers what the SW's `MemWrite` stored. -/
theorem loadAfterStoreGivesStoredWord : Obligations.LoadAfterStoreGivesStoredWord := by
  intro s t rs2 rs1 rd rb imm imm' h hea
  obtain ⟨u, hu, rfl⟩ := exec_sw_next_iff.1 h
  apply writesResult_lw
  rw [hea, State.dataRead_advance]
  exact State.dataRead_of_dataWrite_same hu

/-- Settles O33: truncation to 32 bits is additive. -/
theorem effectiveAddressIsBasePlusDisplacement : Obligations.EffectiveAddressIsBasePlusDisplacement := by
  intro s mode rs1 imm
  rw [BitVec.ofInt_add, ← immOperand_eq_ofInt, BitVec.ofInt_natCast, BitVec.ofNat_toNat, BitVec.setWidth_eq]
  rfl

/-- Settles O36, by the out-of-range end of LW and of SW. -/
theorem outOfRangeAccessFaults : Obligations.OutOfRangeAccessFaults := by
  intro s r rs1 imm
  constructor
  · exact fun h => (execLw_eq r rs1 imm s).trans (if_pos h)
  · exact fun h => (execSw_eq r rs1 imm s).trans (if_pos h)

end Sys2Proof.Proofs
end

section
/-! The statements of 30_encoding.md: decoder and encoder, branch labels, the idioms, and which
immediates `IMM_EXT` can change. -/

open Sys2Proof Sys2Proof.Machine Sys2Proof.Safety

namespace Sys2Proof

/-! ## The fields of a word as numbers (R65, R69) -/

theorem toNat_opcodeOf (w : Word) : (opcodeOf w).toNat = w.toNat / 2 ^ 27 := by
  simp only [opcodeOf, BitVec.extractLsb'_toNat, Nat.shiftRight_eq_div_pow]
  omega

theorem toNat_rs1Of (w : Word) : (rs1Of w).toNat = w.toNat / 2 ^ 22 % 32 := by
  simp only [rs1Of, BitVec.extractLsb'_toNat, Nat.shiftRight_eq_div_pow, Nat.reducePow]

theorem toNat_rs2Of (w : Word) : (rs2Of w).toNat = w.toNat / 2 ^ 17 % 32 := by
  simp only [rs2Of, BitVec.extractLsb'_toNat, Nat.shiftRight_eq_div_pow, Nat.reducePow]

theorem toNat_rdOf (w : Word) : (rdOf w).toNat = w.toNat / 2 ^ 12 % 32 := by
  simp only [rdOf, BitVec.extractLsb'_toNat, Nat.shiftRight_eq_div_pow, Nat.reducePow]

/-! ## A word with the fields of one of R75's masks cleared -/

/-- AND of a word with a laid-out one, field by field. -/
theorem and_layoutWord (w : Word) (op : BitVec 5) (rs1 rs2 rd : RegNum) (low : BitVec 12) :
    w &&& layoutWord op rs1 rs2 rd low =
      layoutWord (opcodeOf w &&& op) (rs1Of w &&& rs1) (rs2Of w &&& rs2) (rdOf w &&& rd) (immOf w &&& low) := by
  rw [← layoutWord_and, layoutWord_fields]

section
variable (w : Word)

theorem clear_low : w &&& ~~~0x00000FFF = layoutWord (opcodeOf w) (rs1Of w) (rs2Of w) (rdOf w) 0 :=
  (and_layoutWord w (.allOnes 5) (.allOnes 5) (.allOnes 5) (.allOnes 5) 0#12).trans
    (by simp only [BitVec.and_allOnes, BitVec.and_zero]; rfl)

theorem clear_rs2 : w &&& ~~~0x003E0000 = layoutWord (opcodeOf w) (rs1Of w) 0 (rdOf w) (immOf w) :=
  (and_layoutWord w (.allOnes 5) (.allOnes 5) 0#5 (.allOnes 5) (.allOnes 12)).trans
    (by simp only [BitVec.and_allOnes, BitVec.and_zero]; rfl)

theorem clear_rd : w &&& ~~~0x0001F000 = layoutWord (opcodeOf w) (rs1Of w) (rs2Of w) 0 (immOf w) :=
  (and_layoutWord w (.allOnes 5) (.allOnes 5) (.allOnes 5) 0#5 (.allOnes 12)).trans
    (by simp only [BitVec.and_allOnes, BitVec.and_zero]; rfl)

theorem clear_rs2_rd_low : w &&& ~~~0x003FFFFF = layoutWord (opcodeOf w) (rs1Of w) 0 0 0 :=
  (and_layoutWord w (.allOnes 5) (.allOnes 5) 0#5 0#5 0#12).trans
    (by simp only [BitVec.and_allOnes, BitVec.and_zero]; rfl)

theorem clear_rs2_low : w &&& ~~~0x003E0FFF = layoutWord (opcodeOf w) (rs1Of w) 0 (rdOf w) 0 :=
  (and_layoutWord w (.allOnes 5) (.allOnes 5) 0#5 (.allOnes 5) 0#12).trans
    (by simp only [BitVec.and_allOnes, BitVec.and_zero]; rfl)

end

/-! ## What the opcode map selects, said once -/

theorem selectInstr_encode (i : Instr) : selectInstr (encode i) = some i := by
  cases i <;> simp [encode, selectInstr]

/-- What a selected instruction has in common with its word: the opcode (R65), every register field that it
uses (R69, R75), and so the encoding, but for the unused fields. -/
structure SelectedFrom (w : Word) (i : Instr) : Prop where
  opcode : opcodeNumber i = (opcodeOf w).toNat
  rs1 : ∀ r, (registerFields i).1 = some r → r = rs1Of w
  rs2 : ∀ r, (registerFields i).2.1 = some r → r = rs2Of w
  rd : ∀ r, (registerFields i).2.2 = some r → r = rdOf w
  encoding : w &&& ~~~unusedMask i = encode i

theorem selectedFrom_of_selectInstr {w : Word} {i : Instr} (h : selectInstr w = some i) : SelectedFrom w i := by
  unfold selectInstr at h
  split at h
  case h_24 => cases h
  all_goals
    next hn =>
    injection h with h
    subst h
    have hop : opcodeOf w = _ := (BitVec.ofNat_toNat 5 (opcodeOf w)).symm.trans (congrArg _ hn)
    constructor
    · exact hn.symm
    · simp [registerFields, eq_comm]
    · simp [registerFields, eq_comm]
    · simp [registerFields, eq_comm]
    · simp only [unusedMask, clear_low, clear_rs2, clear_rd, clear_rs2_rd_low, clear_rs2_low, hop]
      rfl

/-- The unassigned opcodes are 0 and those from 24 up (R66). -/
theorem selectInstr_eq_none_iff (w : Word) :
    selectInstr w = none ↔ (opcodeOf w).toNat = 0 ∨ 24 ≤ (opcodeOf w).toNat := by
  unfold selectInstr
  split
  case h_24 => simp only [imp_false, true_iff] at *; omega
  all_goals simp [*]

theorem exists_selectInstr_iff (w : Word) :
    (∃ i, selectInstr w = some i) ↔ 1 ≤ w.toNat / 2 ^ 27 ∧ w.toNat / 2 ^ 27 ≤ 23 := by
  rw [← Option.ne_none_iff_exists', ne_eq, selectInstr_eq_none_iff, toNat_opcodeOf]
  omega

/-- The two tables of R75 are one: by instruction and by opcode number. -/
theorem unusedMask_eq (i : Instr) : unusedMask i = strictZeroMask (opcodeNumber i) := by
  cases i <;> rfl

theorem encode_injective : Function.Injective encode := fun i j h =>
  Option.some_inj.1 (by rw [← selectInstr_encode, h, selectInstr_encode])

theorem opcodeNumber_eq (i : Instr) : opcodeNumber i = (opcodeOf (encode i)).toNat :=
  (selectedFrom_of_selectInstr (selectInstr_encode i)).opcode

/-- No mask of R75 reaches the opcode. -/
theorem opcodeOf_clear_unused (w : Word) (i : Instr) : opcodeOf (w &&& ~~~unusedMask i) = opcodeOf w := by
  cases i <;>
    simp only [unusedMask, clear_low, clear_rs2, clear_rd, clear_rs2_rd_low, clear_rs2_low, opcodeOf_layoutWord]

/-- The opcode map selects an instruction exactly from the words that are its encoding but for the unused
fields. -/
theorem selectInstr_eq_some_iff (w : Word) (i : Instr) :
    selectInstr w = some i ↔ w &&& ~~~unusedMask i = encode i := by
  refine ⟨fun h => (selectedFrom_of_selectInstr h).encoding, fun h => ?_⟩
  have hop : opcodeNumber i = (opcodeOf w).toNat := by
    rw [opcodeNumber_eq, ← h, opcodeOf_clear_unused]
  have hassigned : selectInstr w ≠ none := by
    rw [ne_eq, selectInstr_eq_none_iff, ← hop, opcodeNumber_eq, ← selectInstr_eq_none_iff, selectInstr_encode]
    exact Option.some_ne_none i
  obtain ⟨j, hj⟩ := Option.ne_none_iff_exists'.1 hassigned
  have hsel := selectedFrom_of_selectInstr hj
  have hmask : unusedMask j = unusedMask i := by
    rw [unusedMask_eq, unusedMask_eq, hsel.opcode, hop]
  rw [hj, encode_injective (hsel.encoding.symm.trans (by rw [hmask, h]))]

/-! ## The ends of decode -/

section
variable {strict : Bool} {w : Word} {i : Instr}

theorem decode_of_none (h : selectInstr w = none) : decode strict w = .error (.illegalInstruction w) := by
  simp only [decode, h]

theorem decode_of_some (h : selectInstr w = some i) :
    decode strict w =
      if strict = true ∧ w &&& unusedMask i ≠ 0 then .error (.reservedEncoding w) else .ok i := by
  simp only [decode, h]

theorem decode_eq_ok_iff :
    decode strict w = .ok i ↔ selectInstr w = some i ∧ (strict = true → w &&& unusedMask i = 0) := by
  cases h : selectInstr w with
  | none => simp [decode_of_none h]
  | some j =>
    rw [decode_of_some h]
    constructor
    · intro hok
      split_ifs at hok with hbad
      cases hok
      exact ⟨rfl, fun hs => not_not.1 fun hne => hbad ⟨hs, hne⟩⟩
    · rintro ⟨⟨rfl⟩, hzero⟩
      exact if_neg fun hbad => hbad.2 (hzero hbad.1)

theorem decode_eq_illegal_iff :
    decode strict w = .error (.illegalInstruction w) ↔ selectInstr w = none := by
  cases h : selectInstr w with
  | none => simp [decode_of_none h]
  | some j => rw [decode_of_some h]; split_ifs <;> simp

theorem decode_eq_reserved_iff :
    decode strict w = .error (.reservedEncoding w) ↔
      strict = true ∧ ∃ i, selectInstr w = some i ∧ w &&& unusedMask i ≠ 0 := by
  cases h : selectInstr w with
  | none => simp [decode_of_none h]
  | some j => simp [decode_of_some h]

theorem decode_error {e : DecodeError} (h : decode strict w = .error e) :
    e = .illegalInstruction w ∨ e = .reservedEncoding w := by
  cases hsel : selectInstr w with
  | none =>
    rw [decode_of_none hsel] at h
    cases h
    exact .inl rfl
  | some j =>
    rw [decode_of_some hsel] at h
    split_ifs at h
    cases h
    exact .inr rfl

end

/-- Clearing bits that are 0 already changes nothing. -/
theorem and_not_of_and_eq_zero {w m : Word} (h : w &&& m = 0) : w &&& ~~~m = w := by
  calc w &&& ~~~m = w &&& m ||| w &&& ~~~m := by rw [h]; exact BitVec.zero_or.symm
    _ = w := by rw [← BitVec.and_or_distrib_left, BitVec.or_not_self, BitVec.and_allOnes]

/-- An encoding has no bit in the unused fields (R67 (a)). -/
theorem encode_and_unusedMask (i : Instr) : encode i &&& unusedMask i = 0 := by
  cases i
  case addi | andi | sll | srl | lw => exact Laws.UnusedZero.and_rs2 ..
  case sw | beq | blt | bgt => exact Laws.UnusedZero.and_rd ..
  case jmp | jal => exact Laws.UnusedZero.and_rs2_rd_low ..
  case abs | conj => exact Laws.UnusedZero.and_rs2_low ..
  all_goals exact Laws.UnusedZero.and_low ..

theorem decode_encode (strict : Bool) (i : Instr) : decode strict (encode i) = .ok i :=
  decode_eq_ok_iff.2 ⟨selectInstr_encode i, fun _ => encode_and_unusedMask i⟩

/-- The word that the assembler writes for an instruction is its encoding in the sense of R67 (a). -/
theorem encodedBy_of_encode_eq {i : Instr} {w : Word} (h : encode i = w) : EncodedBy i w :=
  ⟨h, h ▸ decode_encode true i, h ▸ decode_encode false i⟩

end Sys2Proof

namespace Sys2Proof.Machine

/-! ## Branches and their labels -/

/-- An instruction that changes the pc alone. -/
theorem goesTo_of_setPc {i : Instr} {s : State} {p : Word} (h : exec i s = .next (s.setPc p)) : GoesTo i s p :=
  ⟨_, h, rfl, fun _ => rfl, fun _ => rfl, rfl, rfl, rfl⟩

/-- BEQ of a register with itself is taken (R111). -/
theorem exec_beq_self (r : RegNum) (imm : Imm12) (s : State) :
    exec (.beq r r imm) s = .next (s.setPc (s.branchTarget s.cfg.immExt.beq imm)) := by
  simp [exec, execBeq, condEq, State.branch_eq]

/-- A label is rejected exactly outside -2048 to 2047 (R72). -/
theorem branchOffset_eq_none_iff (l a : Word) :
    branchOffset l a = none ↔ (l - (a + 1)).toInt < -2048 ∨ 2047 < (l - (a + 1)).toInt := by
  simp only [branchOffset]
  split_ifs with h
  · simp only [false_iff]; omega
  · simp only [true_iff]; omega

/-- The offset stored for a label sign-extends to the label's distance (R68, R72). -/
theorem immOperand_branchOffset {l a : Word} {imm : Imm12} (h : branchOffset l a = some imm) :
    immOperand .sign imm = l - (a + 1) := by
  simp only [branchOffset] at h
  split_ifs at h with hd
  cases h
  rw [immOperand_eq_ofInt, immInteger, BitVec.toInt_ofInt_eq_self (by decide) hd.1 (Int.lt_add_one_of_le hd.2),
    BitVec.ofInt_toInt]

/-! ## An IMM of 0, and writing back what a register reads -/

@[simp] theorem immOperand_zero (mode : ImmMode) : immOperand mode 0#12 = 0#32 := by
  cases mode <;> rfl

/-- A branch by 0 goes to the next instruction, taken or not. -/
theorem State.branch_zero (s : State) (taken : Bool) (mode : ImmMode) :
    s.branch taken mode 0 = .next s.advance := by
  simp [State.branch_eq, State.branchTarget, State.advance]

theorem State.writeReg_readReg (s : State) (r : RegNum) : s.writeReg r (s.readReg r) = s := by
  by_cases h : s.hardwired r = true
  · simp only [State.writeReg, if_pos h]
  · simp [State.writeReg, State.readReg, h]

/-! ## The same instruction under other parameters -/

/-- An IMM below 2048 has bit 11 clear, so both extensions give one value (R68). -/
theorem immOperand_of_lt {imm : Imm12} (h : imm.toNat < 2048) (mode mode' : ImmMode) :
    immOperand mode imm = immOperand mode' imm := by
  have hwiden (m : ImmMode) : immOperand m imm = imm.setWidth 32 := by
    cases m with
    | zero => rfl
    | sign => exact BitVec.signExtend_eq_setWidth_of_msb_false (BitVec.msb_eq_false_iff_two_mul_lt.2 (by omega))
  rw [hwiden, hwiden]

/-- DIV by 0 (R85). -/
theorem execDiv_of_eq_zero {s : State} {rd rs1 rs2 : RegNum} (h : s.readReg rs2 = 0) :
    execDiv rd rs1 rs2 s = .fault .divideByZero := if_pos h

/-- DIV by a divisor other than 0 (R85). -/
theorem execDiv_of_ne_zero {s : State} {rd rs1 rs2 : RegNum} (h : s.readReg rs2 ≠ 0) :
    execDiv rd rs1 rs2 s = s.retire rd (divQuotient s.cfg.divFn (s.readReg rs1) (s.readReg rs2)) := if_neg h

/-- The parameters that accesses to registers and memory look at (R22, R42, R51) are the same. -/
structure SameAccess (cfg cfg' : Config) : Prop where
  r0Hardwired : cfg.r0Hardwired = cfg'.r0Hardwired
  dmemWords : cfg.dmemWords = cfg'.dmemWords
  unifiedMemory : cfg.unifiedMemory = cfg'.unifiedMemory

theorem sameAccess_immExt (cfg : Config) (ext : ImmExt) : SameAccess { cfg with immExt := ext } cfg :=
  ⟨rfl, rfl, rfl⟩

theorem branch_withConfig {s : State} {cfg : Config} (taken : Bool) {mode mode' : ImmMode} {imm : Imm12}
    (himm : immOperand mode imm = immOperand mode' imm) :
    (withConfig s cfg).branch taken mode imm = outcomeWithConfig cfg (s.branch taken mode' imm) := by
  simp only [State.branch_eq, State.branchTarget, himm]
  rfl

section
variable {s : State} {cfg : Config} (h : SameAccess cfg s.cfg)
include h

theorem SameAccess.hardwired_eq (r : RegNum) : (withConfig s cfg).hardwired r = s.hardwired r := by
  simp only [State.hardwired, withConfig, h.r0Hardwired]

theorem SameAccess.readReg_eq (r : RegNum) : (withConfig s cfg).readReg r = s.readReg r := by
  simp only [State.readReg, h.hardwired_eq]
  rfl

theorem SameAccess.inProgram_eq (ea : Word) : (withConfig s cfg).inProgram ea = s.inProgram ea := by
  have hunified : (withConfig s cfg).cfg.unifiedMemory = s.cfg.unifiedMemory := h.unifiedMemory
  simp only [State.inProgram, hunified]
  rfl

theorem SameAccess.dataRead_eq (ea : Word) : (withConfig s cfg).dataRead ea = s.dataRead ea := by
  have hwords : (withConfig s cfg).cfg.dmemWords = s.cfg.dmemWords := h.dmemWords
  simp only [State.dataRead, hwords, h.inProgram_eq]
  rfl

theorem SameAccess.effectiveAddress_eq {mode mode' : ImmMode} {imm : Imm12} (rs1 : RegNum)
    (himm : immOperand mode imm = immOperand mode' imm) :
    (withConfig s cfg).effectiveAddress mode rs1 imm = s.effectiveAddress mode' rs1 imm := by
  simp only [State.effectiveAddress, himm, h.readReg_eq]

theorem SameAccess.writeReg_eq (r : RegNum) (v : Word) :
    (withConfig s cfg).writeReg r v = withConfig (s.writeReg r v) cfg := by
  simp only [State.writeReg, h.hardwired_eq]
  split_ifs <;> rfl

theorem SameAccess.retire_eq (rd : RegNum) {v v' : Word} (hv : v = v') :
    (withConfig s cfg).retire rd v = outcomeWithConfig cfg (s.retire rd v') := by
  simp only [State.retire_eq, h.writeReg_eq, hv]
  rfl

theorem SameAccess.execLw_eq (rd rs1 : RegNum) {imm : Imm12}
    (himm : immOperand cfg.immExt.lw imm = immOperand s.cfg.immExt.lw imm) :
    execLw rd rs1 imm (withConfig s cfg) = outcomeWithConfig cfg (execLw rd rs1 imm s) := by
  have hea : (withConfig s cfg).effectiveAddress (withConfig s cfg).cfg.immExt.lw rs1 imm =
      s.effectiveAddress s.cfg.immExt.lw rs1 imm := h.effectiveAddress_eq rs1 himm
  simp only [execLw, hea, h.dataRead_eq]
  cases s.dataRead (s.effectiveAddress s.cfg.immExt.lw rs1 imm) with
  | error f => rfl
  | ok v => exact h.retire_eq rd rfl

theorem SameAccess.execSw_eq (rs2 rs1 : RegNum) {imm : Imm12}
    (himm : immOperand cfg.immExt.sw imm = immOperand s.cfg.immExt.sw imm) :
    execSw rs2 rs1 imm (withConfig s cfg) = outcomeWithConfig cfg (execSw rs2 rs1 imm s) := by
  have hea : (withConfig s cfg).effectiveAddress (withConfig s cfg).cfg.immExt.sw rs1 imm =
      s.effectiveAddress s.cfg.immExt.sw rs1 imm := h.effectiveAddress_eq rs1 himm
  have hwords : (withConfig s cfg).cfg.dmemWords = s.cfg.dmemWords := h.dmemWords
  simp only [Machine.execSw_eq, hea, h.inProgram_eq, h.readReg_eq, hwords]
  split_ifs <;> rfl

theorem SameAccess.execDiv_eq (rd rs1 rs2 : RegNum) (hfn : cfg.divFn = s.cfg.divFn) :
    execDiv rd rs1 rs2 (withConfig s cfg) = outcomeWithConfig cfg (execDiv rd rs1 rs2 s) := by
  have hread := h.readReg_eq
  by_cases hz : s.readReg rs2 = 0
  · rw [execDiv_of_eq_zero hz, execDiv_of_eq_zero (by rwa [hread])]
    rfl
  · rw [execDiv_of_ne_zero hz, execDiv_of_ne_zero (by rwa [hread])]
    exact h.retire_eq rd (by rw [hread, hread, ← hfn]; rfl)

theorem SameAccess.execDivc_eq (rd rs1 rs2 : RegNum)
    (hresult : divcResult cfg (s.readReg rs1) (s.readReg rs2) =
      divcResult s.cfg (s.readReg rs1) (s.readReg rs2)) :
    execDivc rd rs1 rs2 (withConfig s cfg) = outcomeWithConfig cfg (execDivc rd rs1 rs2 s) := by
  have hcfg : (withConfig s cfg).cfg = cfg := rfl
  simp only [execDivc, h.readReg_eq, hcfg, hresult]
  cases divcResult s.cfg (s.readReg rs1) (s.readReg rs2) with
  | none => rfl
  | some v => exact h.retire_eq rd rfl

theorem SameAccess.execJal_eq (rs1 : RegNum) (hra : cfg.raIndex = s.cfg.raIndex) :
    execJal rs1 (withConfig s cfg) = outcomeWithConfig cfg (execJal rs1 s) := by
  have hra' : (withConfig s cfg).cfg.raIndex = s.cfg.raIndex := hra
  simp only [execJal, hra', h.writeReg_eq, h.readReg_eq]
  rfl

end

/-- Under another `IMM_EXT` an instruction does the same where its IMM widens to one value. -/
theorem exec_withConfig_immExt {i : Instr} {s : State} {ext : ImmExt}
    (himm : ∀ imm, widenedImm i = some imm → ∀ mode mode', immOperand mode imm = immOperand mode' imm) :
    exec i (withConfig s { s.cfg with immExt := ext }) =
      outcomeWithConfig { s.cfg with immExt := ext } (exec i s) := by
  have h := sameAccess_immExt s.cfg ext
  cases i
  case addi rd rs1 imm => exact h.retire_eq rd (congrArg (s.readReg rs1 + ·) (himm imm rfl _ _))
  case andi rd rs1 imm => exact h.retire_eq rd (congrArg (s.readReg rs1 &&& ·) (himm imm rfl _ _))
  case lw rd rs1 imm => exact h.execLw_eq rd rs1 (himm imm rfl _ _)
  case sw rs2 rs1 imm => exact h.execSw_eq rs2 rs1 (himm imm rfl _ _)
  case beq rs1 rs2 imm => exact branch_withConfig _ (himm imm rfl _ _)
  case blt rs1 rs2 imm => exact branch_withConfig _ (himm imm rfl _ _)
  case bgt rs1 rs2 imm => exact branch_withConfig _ (himm imm rfl _ _)
  case div rd rs1 rs2 => exact h.execDiv_eq rd rs1 rs2 rfl
  case divc rd rs1 rs2 => exact h.execDivc_eq rd rs1 rs2 rfl
  case jmp => rfl
  case jal rs1 => exact h.execJal_eq rs1 rfl
  all_goals exact h.retire_eq _ rfl

end Sys2Proof.Machine

namespace Sys2Proof.Proofs

/-- Settles O2: the opcode map selects the instruction from its encoding, whose unused fields are 0. -/
theorem decodeEncodeRoundTrip : Obligations.DecodeEncodeRoundTrip := decode_encode

/-- Settles O3: clearing unused fields that are 0 already changes nothing. -/
theorem strictDecodeReadsOnlyEncodings : Obligations.StrictDecodeReadsOnlyEncodings := by
  intro w i h
  obtain ⟨hsel, hunused⟩ := decode_eq_ok_iff.1 h
  rw [← (selectInstr_eq_some_iff w i).1 hsel, and_not_of_and_eq_zero (hunused rfl)]

/-- Settles O4: without `STRICT_UNUSED` the opcode map alone decides. -/
theorem lenientDecodeIgnoresUnusedBits : Obligations.LenientDecodeIgnoresUnusedBits := by
  intro w i
  rw [decode_eq_ok_iff, selectInstr_eq_some_iff]
  simp

/-- Settles O5, by the opcode of a selected instruction. -/
theorem opcodeSelectsInstruction : Obligations.OpcodeSelectsInstruction := by
  have hopcode {w : Word} {i : Instr} (h : selectInstr w = some i) : opcodeNumber i = w.toNat / 2 ^ 27 := by
    rw [(selectedFrom_of_selectInstr h).opcode, toNat_opcodeOf]
  refine fun w => ⟨fun strict i h => hopcode (decode_eq_ok_iff.1 h).1, fun hlo hhi => ?_⟩
  obtain ⟨i, hi⟩ := (exists_selectInstr_iff w).2 ⟨hlo, hhi⟩
  exact ⟨i, decode_eq_ok_iff.2 ⟨hi, nofun⟩, hopcode hi⟩

/-- Settles O6: decode answers an illegal instruction exactly where the opcode map selects none. -/
theorem illegalOpcodesExactly : Obligations.IllegalOpcodesExactly := fun strict w => by
  rw [decode_eq_illegal_iff, selectInstr_eq_none_iff, toNat_opcodeOf]

/-- Settles O7: a selected instruction's mask is the table's for its opcode, and one is selected exactly where the
opcode is assigned. -/
theorem reservedEncodingsExactly : Obligations.ReservedEncodingsExactly := by
  refine fun strict w => ⟨?_, fun e => decode_error⟩
  have hmask {i : Instr} (h : selectInstr w = some i) : unusedMask i = strictZeroMask (w.toNat / 2 ^ 27) := by
    rw [unusedMask_eq, (selectedFrom_of_selectInstr h).opcode, toNat_opcodeOf]
  rw [decode_eq_reserved_iff, ← and_assoc (a := _ ≤ _), ← exists_selectInstr_iff]
  refine and_congr_right fun _ => ⟨?_, ?_⟩
  · rintro ⟨i, hi, hne⟩
    exact ⟨⟨i, hi⟩, hmask hi ▸ hne⟩
  · rintro ⟨⟨i, hi⟩, hne⟩
    exact ⟨i, hi, (hmask hi).symm ▸ hne⟩

/-- Settles O58: every register field of a selected instruction is the word's. -/
theorem registerFieldPositions : Obligations.RegisterFieldPositions := by
  intro strict w i h
  have hsel := selectedFrom_of_selectInstr (decode_eq_ok_iff.1 h).1
  exact ⟨fun r hr => by rw [hsel.rs1 r hr, toNat_rs1Of], fun r hr => by rw [hsel.rs2 r hr, toNat_rs2Of],
    fun r hr => by rw [hsel.rd r hr, toNat_rdOf]⟩

/-- Settles O1, each word by the encoder. -/
theorem workedEncodings : Obligations.WorkedEncodings :=
  ⟨encodedBy_of_encode_eq rfl, encodedBy_of_encode_eq rfl, encodedBy_of_encode_eq rfl,
    encodedBy_of_encode_eq rfl⟩

/-- Settles O46: the offset sign-extends to the label's distance, which the branch adds back. -/
theorem branchReachesItsLabel : Obligations.BranchReachesItsLabel := by
  refine fun s l imm => ⟨branchOffset_eq_none_iff l s.pc, fun h => ?_⟩
  have htarget : s.branchTarget .sign imm = l := by
    rw [State.branchTarget, immOperand_branchOffset h, add_sub_cancel]
  exact ⟨htarget, fun r hmode => goesTo_of_setPc (by rw [exec_beq_self, hmode, htarget])⟩

/-- Settles O47: each idiom retires the value it names, or advances the pc. -/
theorem idioms : Obligations.Idioms := by
  intro s d r q
  refine ⟨writesResult_of_retire ?_, fun hmode => writesResult_of_retire ?_, writesResult_of_retire ?_,
    writesResult_of_retire ?_, ?_, s.branch_zero _ _⟩
  · simp [exec, execSub]
  · simp [exec, execAndi]
  · simp [exec, execAddi]
  · simp [exec, execOr]
  · simp [exec, execAddi, State.retire_eq, State.writeReg_readReg]

/-- Settles O55: a small IMM widens to one value under both modes, and nothing else looks at `IMM_EXT`. -/
theorem smallImmediatesIgnoreExtension : Obligations.SmallImmediatesIgnoreExtension :=
  fun _ _ _ hsmall => exec_withConfig_immExt fun imm himm => immOperand_of_lt (hsmall imm himm)

end Sys2Proof.Proofs
end

section
/-! The statements of 40_integer_arithmetic.md: ADD, ADDI, SUB, MUL and DIV, and where a divisor of 0 faults. -/

open Sys2Proof Sys2Proof.Machine Sys2Proof.Safety

namespace Sys2Proof

/-! ## Encodings as the spec writes them: every field shifted to its place (R62, R63) -/

theorem layoutWord_eq_or (op : BitVec 5) (rs1 rs2 rd : RegNum) (low : Imm12) :
    layoutWord op rs1 rs2 rd low =
      op.setWidth 32 <<< 27 ||| regAt rs1 22 ||| regAt rs2 17 ||| regAt rd 12 ||| low.setWidth 32 := by
  rw [layoutWord, ← BitVec.setWidth_eq (op ++ rs1 ++ rs2 ++ rd ++ low)]
  simp only [regAt, BitVec.setWidth_append_eq_shiftLeft_setWidth_or, BitVec.shiftLeft_or_distrib,
    ← BitVec.shiftLeft_add]

/-- The encoding of an instruction of three registers; `base` is its opcode in bits 31:27 (R62). -/
theorem encodedBy_three_registers {i : Instr} {op : BitVec 5} {rs1 rs2 rd : RegNum} {base : Word}
    (hi : encode i = layoutWord op rs1 rs2 rd 0) (hbase : op.setWidth 32 <<< 27 = base) :
    EncodedBy i (base ||| regAt rs1 22 ||| regAt rs2 17 ||| regAt rd 12) := by
  have himm : BitVec.setWidth 32 (0 : Imm12) = 0#32 := rfl
  exact encodedBy_of_encode_eq (by rw [hi, layoutWord_eq_or, hbase, himm, BitVec.or_zero])

/-- The encoding of an instruction of a source, a destination and IMM; `base` is its opcode in bits 31:27 (R63). -/
theorem encodedBy_two_registers_imm {i : Instr} {op : BitVec 5} {rs1 rd : RegNum} {imm : Imm12} {base : Word}
    (hi : encode i = layoutWord op rs1 0 rd imm) (hbase : op.setWidth 32 <<< 27 = base) :
    EncodedBy i (base ||| regAt rs1 22 ||| regAt rd 12 ||| imm.setWidth 32) := by
  have hrs2 : regAt 0 17 = 0#32 := rfl
  exact encodedBy_of_encode_eq (by rw [hi, layoutWord_eq_or, hbase, hrs2, BitVec.or_zero])

end Sys2Proof

namespace Sys2Proof.Machine

/-! ## Truncation to 32 bits respects +, - and * of either reading (R86, D8, D9) -/

theorem ofInt_sub {n : Nat} (x y : Int) : BitVec.ofInt n (x - y) = BitVec.ofInt n x - BitVec.ofInt n y :=
  Int.cast_sub x y

theorem ofInt_toNat {n : Nat} (a : BitVec n) : BitVec.ofInt n a.toNat = a := by
  rw [BitVec.ofInt_natCast, BitVec.ofNat_toNat, BitVec.setWidth_eq]

/-! ## Quotients (R85, R86) -/

/-- R86's sign table: a quotient rounded toward zero is the quotient of the magnitudes, negative where the signs
differ. -/
theorem tdiv_eq_sign_table (a b : Int) :
    a.tdiv b = if a < 0 ↔ b < 0 then ((a.natAbs / b.natAbs : Nat) : Int)
      else -((a.natAbs / b.natAbs : Nat) : Int) := by
  rw [Int.ofNat_tdiv, Int.natCast_natAbs, Int.natCast_natAbs]
  rcases lt_or_ge a 0 with ha | ha <;> rcases lt_or_ge b 0 with hb | hb
  · simp [ha, hb, abs_of_neg]
  · simp [ha, hb.not_gt, abs_of_neg, abs_of_nonneg hb]
  · simp [ha.not_gt, hb, abs_of_neg, abs_of_nonneg ha]
  · simp [ha.not_gt, hb.not_gt, abs_of_nonneg ha, abs_of_nonneg hb]

/-- Operands below 2^31 read the same signed and unsigned, so every setting of `DIV_FN` but the free one gives
their quotient rounded down (R85). -/
theorem divQuotient_of_lt {fn : DivFn} {a b : Word} (ha : a.toNat < 2 ^ 31) (hb : b.toNat < 2 ^ 31)
    (hfn : fn ≠ .free) : divQuotient fn a b = BitVec.ofNat 32 (a.toNat / b.toNat) := by
  have hreads {v : Word} (hv : v.toNat < 2 ^ 31) : v.toInt = v.toNat :=
    BitVec.toInt_eq_toNat_of_lt (by omega)
  cases fn with
  | truncate => rw [divQuotient, trunc32, hreads ha, hreads hb, ← Int.ofNat_tdiv, BitVec.ofInt_natCast]
  | floor => rw [divQuotient, trunc32, hreads ha, hreads hb, ← Int.ofNat_fdiv, BitVec.ofInt_natCast]
  | unsigned => rfl
  | free => exact absurd rfl hfn

/-- The default `DIVC_FN` has no quotient by 0 + 0i (R122). -/
theorem complexQuotient_zero (cfg : Config) (x : Word) : complexQuotient cfg x 0 = none := by
  unfold complexQuotient
  cases cfg.cplxRealHi <;> rfl

/-- DIV by a divisor other than 0 writes the quotient (R85). -/
theorem writesResult_div {s : State} {rd rs1 rs2 : RegNum} {v : Word} (hz : s.readReg rs2 ≠ 0)
    (hv : divQuotient s.cfg.divFn (s.readReg rs1) (s.readReg rs2) = v) :
    WritesResult (.div rd rs1 rs2) s rd v :=
  writesResult_of_retire ((execDiv_of_ne_zero hz).trans (congrArg (s.retire rd) hv))

end Sys2Proof.Machine

namespace Sys2Proof.Proofs

/-- Settles O22: the sum of two words is the sum of their numbers, truncated. -/
theorem addResult : Obligations.AddResult := fun s rd _ _ =>
  ⟨encodedBy_three_registers rfl rfl, writesResult_of_retire (congrArg (s.retire rd) (BitVec.add_def ..))⟩

/-- Settles O23: the widened IMM is the integer it stands for, truncated, and truncation respects +. -/
theorem addiResult : Obligations.AddiResult := fun s rd rs1 imm =>
  have hsum : s.readReg rs1 + immOperand s.cfg.immExt.addi imm =
      BitVec.ofInt 32 ((s.readReg rs1).toInt + immInteger s.cfg.immExt.addi imm) := by
    rw [BitVec.ofInt_add, BitVec.ofInt_toInt, immOperand_eq_ofInt]
  ⟨encodedBy_two_registers_imm rfl rfl, writesResult_of_retire (congrArg (s.retire rd) hsum)⟩

/-- Settles O24: truncation respects -. -/
theorem subResult : Obligations.SubResult := fun s rd rs1 rs2 =>
  have hdiff : s.readReg rs1 - s.readReg rs2 =
      BitVec.ofInt 32 ((s.readReg rs1).toInt - (s.readReg rs2).toInt) := by
    rw [ofInt_sub, BitVec.ofInt_toInt, BitVec.ofInt_toInt]
  ⟨encodedBy_three_registers rfl rfl, writesResult_of_retire (congrArg (s.retire rd) hdiff)⟩

/-- Settles O25: the product of two words is the product of their numbers, truncated. -/
theorem mulResult : Obligations.MulResult := fun s rd _ _ =>
  ⟨encodedBy_three_registers rfl rfl, writesResult_of_retire (congrArg (s.retire rd) (BitVec.mul_def ..))⟩

/-- Settles O26: under the default `DIV_FN` by R86's sign table, under the others by the quotient's definition. -/
theorem divResult : Obligations.DivResult := by
  refine fun s rd rs1 rs2 => ⟨encodedBy_three_registers rfl rfl, fun hz => writesResult_div hz ?_⟩
  cases s.cfg.divFn with
  | truncate => exact congrArg trunc32 (tdiv_eq_sign_table _ _)
  | floor => rfl
  | unsigned => rfl
  | free => rfl

/-- Settles O28: the truncation of either reading's exact result is the word operation's, which the instruction
retires. -/
theorem arithmeticIgnoresSignedness : Obligations.ArithmeticIgnoresSignedness := by
  intro s rd rs1 rs2 a b
  simp only [BitVec.ofInt_add, ofInt_sub, BitVec.ofInt_mul, BitVec.ofInt_toInt, ofInt_toNat, true_and]
  exact ⟨rfl, rfl, rfl⟩

/-- Settles O29: all three quotients of operands below 2^31 are one. -/
theorem divReadingsAgreeOnNonNegatives : Obligations.DivReadingsAgreeOnNonNegatives :=
  fun _ _ _ _ ha hb hz hfn => writesResult_div hz (divQuotient_of_lt ha hb hfn)

/-- Settles O27: DIV tests its divisor, and the default `DIVC_FN` has no quotient by 0 + 0i. -/
theorem zeroDivisorsFault : Obligations.ZeroDivisorsFault := by
  refine fun s rd rs1 rs2 hz => ⟨execDiv_of_eq_zero hz, fun hfn => ?_⟩
  simp only [exec, execDivc, divcResult, hfn, hz, complexQuotient_zero, raise]

end Sys2Proof.Proofs
end

section
/-! The statements of 41_logical_shift.md: AND, OR, ANDI, SLL and SRL, and what `SHIFT_MODE` and
`R0_HARDWIRED_ZERO` cannot change. -/

open Sys2Proof Sys2Proof.Machine Sys2Proof.Safety

namespace Sys2Proof

/-- U14 in the words of R24's columns: no source and no destination is register 0. -/
theorem Instr.avoidsRegZero_iff (cfg : Config) (i : Instr) :
    i.avoidsRegZero cfg = true ↔ (∀ r ∈ i.sources, r ≠ 0) ∧ i.dest cfg ≠ some 0 := by
  simp [Instr.avoidsRegZero]

end Sys2Proof

namespace Sys2Proof.Machine

/-! ## Bits and shifts of words (R68, R93 to R95) -/

/-- The widened IMM bit by bit (R68). -/
theorem getLsbD_immOperand_iff (mode : ImmMode) (imm : Imm12) {k : Nat} (hk : k < 32) :
    (immOperand mode imm).getLsbD k = true ↔
      if k < 12 then imm.getLsbD k = true else mode = .sign ∧ imm.getLsbD 11 = true := by
  cases mode with
  | sign =>
    rw [immOperand, BitVec.getLsbD_signExtend, BitVec.msb_eq_getLsbD_last]
    split_ifs <;> simp [hk]
  | zero =>
    rw [immOperand, BitVec.getLsbD_setWidth]
    split_ifs with h
    · simp [hk]
    · simp [BitVec.getLsbD_of_ge imm k (not_lt.1 h)]

theorem shiftLeft_eq_ofNat (v : Word) (n : Nat) : v <<< n = BitVec.ofNat 32 (v.toNat * 2 ^ n) := by
  rw [← Nat.shiftLeft_eq]
  rfl

theorem ushiftRight_eq_ofNat (v : Word) (n : Nat) : v >>> n = BitVec.ofNat 32 (v.toNat / 2 ^ n) := by
  rw [← Nat.shiftRight_eq_div_pow, ← BitVec.toNat_ushiftRight, BitVec.ofNat_toNat, BitVec.setWidth_eq]

/-- SLL's result by its count: `SHIFT_MODE` speaks of counts of 32 and more only (R93, R95). -/
theorem shiftLeft_eq_ite (mode : ShiftMode) (v : Word) (imm : Imm12) :
    shiftLeft mode v imm =
      if imm.toNat < 32 then v <<< imm.toNat
      else if mode = .full then 0 else v <<< (imm.toNat % 32) := by
  cases mode with
  | full => rfl
  | mod32 =>
    rw [shiftLeft, if_neg (nofun : ShiftMode.mod32 ≠ .full)]
    split_ifs with h
    · rw [Nat.mod_eq_of_lt h]
    · rfl

/-- SRL's result by its count (R94, R95). -/
theorem shiftRight_eq_ite (mode : ShiftMode) (v : Word) (imm : Imm12) :
    shiftRight mode v imm =
      if imm.toNat < 32 then v >>> imm.toNat
      else if mode = .full then 0 else v >>> (imm.toNat % 32) := by
  cases mode with
  | full => rfl
  | mod32 =>
    rw [shiftRight, if_neg (nofun : ShiftMode.mod32 ≠ .full)]
    split_ifs with h
    · rw [Nat.mod_eq_of_lt h]
    · rfl

/-! ## Registers other than 0 under other parameters (R22) -/

theorem State.hardwired_of_ne_zero (s : State) {r : RegNum} (hr : r ≠ 0) : s.hardwired r = false := by
  simpa [State.hardwired] using fun _ => hr

section
variable {s : State} {cfg : Config} {r : RegNum} (hr : r ≠ 0)
include hr

theorem readReg_withConfig_of_ne_zero : (withConfig s cfg).readReg r = s.readReg r := by
  simp only [State.readReg, State.hardwired_of_ne_zero _ hr]
  rfl

theorem effectiveAddress_withConfig_of_ne_zero (mode : ImmMode) (imm : Imm12) :
    (withConfig s cfg).effectiveAddress mode r imm = s.effectiveAddress mode r imm := by
  simp only [State.effectiveAddress, readReg_withConfig_of_ne_zero hr]

theorem writeReg_withConfig_of_ne_zero (v : Word) :
    (withConfig s cfg).writeReg r v = withConfig (s.writeReg r v) cfg := by
  simp only [State.writeReg, State.hardwired_of_ne_zero _ hr]
  rfl

theorem retire_withConfig_of_ne_zero {v v' : Word} (hv : v = v') :
    (withConfig s cfg).retire r v = outcomeWithConfig cfg (s.retire r v') := by
  simp only [State.retire_eq, writeReg_withConfig_of_ne_zero hr, hv]
  rfl

end

@[simp] theorem withConfig_cfg (s : State) (cfg : Config) : (withConfig s cfg).cfg = cfg := rfl

/-- The parameters with `SHIFT_MODE` and `R0_HARDWIRED_ZERO` chosen anew. -/
def withShiftAndZero (cfg : Config) (mode : ShiftMode) (zero : Bool) : Config :=
  { cfg with shiftMode := mode, r0Hardwired := zero }

/-! What looks at neither `SHIFT_MODE` nor `R0_HARDWIRED_ZERO`. -/

section
variable (cfg : Config) (s : State) (mode : ShiftMode) (zero : Bool)

@[simp] theorem withShiftAndZero_raIndex : (withShiftAndZero cfg mode zero).raIndex = cfg.raIndex := rfl
@[simp] theorem withShiftAndZero_immExt : (withShiftAndZero cfg mode zero).immExt = cfg.immExt := rfl
@[simp] theorem withShiftAndZero_dmemWords : (withShiftAndZero cfg mode zero).dmemWords = cfg.dmemWords := rfl

@[simp] theorem divcResult_withShiftAndZero (x y : Word) :
    divcResult (withShiftAndZero cfg mode zero) x y = divcResult cfg x y := rfl

@[simp] theorem inProgram_withShiftAndZero (ea : Word) :
    (withConfig s (withShiftAndZero s.cfg mode zero)).inProgram ea = s.inProgram ea := rfl

@[simp] theorem dataRead_withShiftAndZero (ea : Word) :
    (withConfig s (withShiftAndZero s.cfg mode zero)).dataRead ea = s.dataRead ea := rfl

end

/-- An instruction that keeps off register 0 and shifts by less than 32 does the same under every `SHIFT_MODE` and
`R0_HARDWIRED_ZERO`: no register it names can be hardwired, and it looks at no other parameter that differs. -/
theorem exec_withConfig_of_avoidsRegZero {i : Instr} {s : State} {mode : ShiftMode} {zero : Bool}
    (hcount : i.shiftCountOk = true) (hsources : ∀ r ∈ i.sources, r ≠ 0) (hdest : i.dest s.cfg ≠ some 0) :
    exec i (withConfig s (withShiftAndZero s.cfg mode zero)) =
      outcomeWithConfig (withShiftAndZero s.cfg mode zero) (exec i s) := by
  have hread : ∀ r ∈ i.sources, (withConfig s (withShiftAndZero s.cfg mode zero)).readReg r = s.readReg r :=
    fun r hr => readReg_withConfig_of_ne_zero (hsources r hr)
  cases i <;> simp only [Instr.sources, Instr.dest, List.forall_mem_cons, List.not_mem_nil, false_implies,
    implies_true, and_true, ne_eq, Option.some.injEq] at hsources hread hdest
  case sll rd rs1 imm =>
    have hlt : imm.toNat < 32 := of_decide_eq_true hcount
    exact retire_withConfig_of_ne_zero hdest (by simp only [shiftLeft_eq_ite, if_pos hlt, hread])
  case srl rd rs1 imm =>
    have hlt : imm.toNat < 32 := of_decide_eq_true hcount
    exact retire_withConfig_of_ne_zero hdest (by simp only [shiftRight_eq_ite, if_pos hlt, hread])
  case div rd rs1 rs2 =>
    simp only [exec, execDiv, hread]
    split
    · rfl
    · exact retire_withConfig_of_ne_zero hdest rfl
  case divc rd rs1 rs2 =>
    simp only [exec, execDivc, hread, withConfig_cfg, divcResult_withShiftAndZero]
    split
    · rfl
    · exact retire_withConfig_of_ne_zero hdest rfl
  case lw rd rs1 imm =>
    simp only [exec, execLw, withConfig_cfg, withShiftAndZero_immExt,
      effectiveAddress_withConfig_of_ne_zero hsources, dataRead_withShiftAndZero]
    split
    · rfl
    · exact retire_withConfig_of_ne_zero hdest rfl
  case sw rs2 rs1 imm =>
    obtain ⟨hbase, -⟩ := hsources
    simp only [exec, execSw_eq, withConfig_cfg, withShiftAndZero_immExt, withShiftAndZero_dmemWords,
      effectiveAddress_withConfig_of_ne_zero hbase, inProgram_withShiftAndZero, hread]
    split_ifs <;> rfl
  case beq => simp only [exec, execBeq, hread]; exact branch_withConfig _ rfl
  case blt => simp only [exec, execBlt, hread]; exact branch_withConfig _ rfl
  case bgt => simp only [exec, execBgt, hread]; exact branch_withConfig _ rfl
  case jmp => simp only [exec, execJmp, hread]; rfl
  case jal =>
    simp only [exec, execJal, withConfig_cfg, withShiftAndZero_raIndex, writeReg_withConfig_of_ne_zero hdest, hread]
    rfl
  case addi | andi | addc | subc | mulc | abs | conj =>
    exact retire_withConfig_of_ne_zero hdest (by simp only [hread]; rfl)
  all_goals exact retire_withConfig_of_ne_zero hdest (by simp only [hread])

end Sys2Proof.Machine

namespace Sys2Proof.Proofs

/-- Settles O54: the conservative predicate bounds the shift counts, and no register but 0 is ever hardwired. -/
theorem conservativeInstructionsIgnoreParameters : Obligations.ConservativeInstructionsIgnoreParameters := by
  intro i s mode zero hwf havoid
  obtain ⟨hcount, -⟩ := Bool.and_eq_true_iff.1 hwf
  obtain ⟨hsources, hdest⟩ := (Instr.avoidsRegZero_iff s.cfg i).1 havoid
  exact exec_withConfig_of_avoidsRegZero hcount hsources hdest

/-- Settles O30: both instructions act on each bit of the words by itself. -/
theorem andOrResults : Obligations.AndOrResults := fun _ _ _ _ =>
  ⟨encodedBy_three_registers rfl rfl, encodedBy_three_registers rfl rfl,
    ⟨_, writesResult_of_retire rfl, fun k _ => by rw [BitVec.getLsbD_and, Bool.and_eq_true]⟩,
    ⟨_, writesResult_of_retire rfl, fun k _ => by rw [BitVec.getLsbD_or, Bool.or_eq_true]⟩⟩

/-- Settles O31, by the bits of the widened IMM. -/
theorem andiResult : Obligations.AndiResult := fun s _ _ imm =>
  ⟨encodedBy_two_registers_imm rfl rfl, _, writesResult_of_retire rfl, fun k hk => by
    rw [BitVec.getLsbD_and, Bool.and_eq_true, getLsbD_immOperand_iff s.cfg.immExt.andi imm hk]⟩

/-- Settles O32: a word shift is the multiplication by, or the division by, a power of 2. -/
theorem shiftResults : Obligations.ShiftResults := by
  intro s rd rs1 imm
  refine ⟨encodedBy_two_registers_imm rfl rfl, encodedBy_two_registers_imm rfl rfl, ?_, ?_⟩
  · simp only [← shiftLeft_eq_ofNat, ← shiftLeft_eq_ite]
    exact writesResult_of_retire rfl
  · simp only [← ushiftRight_eq_ofNat, ← shiftRight_eq_ite]
    exact writesResult_of_retire rfl

end Sys2Proof.Proofs
end

section
/-! The statements of 42_load_store.md: what LW and SW do inside `DMEM_WORDS`. -/

open Sys2Proof Sys2Proof.Machine Sys2Proof.Safety

namespace Sys2Proof

/-- The encoding of an instruction of two sources and IMM; `base` is its opcode in bits 31:27 (R63). -/
theorem encodedBy_two_sources_imm {i : Instr} {op : BitVec 5} {rs1 rs2 : RegNum} {imm : Imm12} {base : Word}
    (hi : encode i = layoutWord op rs1 rs2 0 imm) (hbase : op.setWidth 32 <<< 27 = base) :
    EncodedBy i (base ||| regAt rs1 22 ||| regAt rs2 17 ||| imm.setWidth 32) := by
  have hrd : regAt 0 12 = 0#32 := rfl
  exact encodedBy_of_encode_eq (by rw [hi, layoutWord_eq_or, hbase, hrd, BitVec.or_zero])

end Sys2Proof

namespace Sys2Proof.Machine

/-- `MemWrite` completes inside `DMEM_WORDS` (R42). -/
theorem State.exists_dataWrite_of_lt {s : State} {ea : Word} (v : Word) (h : ea.toNat < s.cfg.dmemWords) :
    ∃ t, s.dataWrite ea v = .ok t := by
  cases hw : s.dataWrite ea v with
  | error f =>
    obtain ⟨hout, -⟩ := (s.dataWrite_error_iff ea v f).1 hw
    exact absurd h hout.not_gt
  | ok t => exact ⟨t, rfl⟩

end Sys2Proof.Machine

namespace Sys2Proof.Proofs

/-- Settles O34: inside `DMEM_WORDS` `MemRead` answers a word, which LW retires. -/
theorem lwResult : Obligations.LwResult := by
  intro s rd rs1 imm
  refine ⟨encodedBy_two_registers_imm rfl rfl, fun hlt => writesResult_lw ?_⟩
  simp only [State.dataRead_of_lt hlt, State.inProgram_eq_true]

/-- Settles O35: inside `DMEM_WORDS` `MemWrite` completes, and changes one word of the program or one of data
memory. -/
theorem swResult : Obligations.SwResult := by
  intro s rs2 rs1 imm
  refine ⟨encodedBy_two_sources_imm rfl rfl, fun hlt => ?_⟩
  obtain ⟨u, hu⟩ := State.exists_dataWrite_of_lt (s.readReg rs2) hlt
  obtain ⟨hcfg, hmark, -, -⟩ := State.keepsProgram_of_dataWrite hu
  have hpc : u.advance.pc = s.pc + 1 := by rw [State.advance_pc, State.pc_of_dataWrite hu]
  have hregs : SameRegs s u.advance := fun r => by rw [State.readReg_advance, State.readReg_of_dataWrite hu]
  have hread := State.dataRead_of_dataWrite_same hu
  refine ⟨u.advance, exec_sw_next_iff.2 ⟨u, hu, rfl⟩, hpc, hregs, hcfg, hmark, hread, ?_⟩
  simp only [← State.inProgram_eq_true]
  obtain ⟨-, ⟨hprog, rfl⟩ | ⟨hdata, rfl⟩⟩ := State.dataWrite_ok hu
  · rw [if_pos hprog]
    exact ⟨fun _ => rfl, rfl⟩
  · rw [if_neg (by simp [hdata])]
    exact ⟨rfl, s.mem.readWord_writeWord_same .., s.mem.readByte_writeWord_outside _ _⟩

end Sys2Proof.Proofs
end

section
/-! The statements of 43_control_transfer.md: BEQ, BLT, BGT, JMP and JAL, the return from a call, and where
`CMP_SIGNED` cannot matter. -/

open Sys2Proof Sys2Proof.Machine Sys2Proof.Safety

namespace Sys2Proof

theorem regAt_zero (lo : Nat) : regAt 0 lo = 0#32 := BitVec.zero_shiftLeft lo

/-- The encoding of an instruction of one source; `base` is its opcode in bits 31:27 (R62, D5). -/
theorem encodedBy_one_source {i : Instr} {op : BitVec 5} {rs1 : RegNum} {base : Word}
    (hi : encode i = layoutWord op rs1 0 0 0) (hbase : op.setWidth 32 <<< 27 = base) :
    EncodedBy i (base ||| regAt rs1 22) := by
  simpa only [regAt_zero, BitVec.or_zero] using encodedBy_three_registers hi hbase

end Sys2Proof

namespace Sys2Proof.Machine

/-! ## The comparisons (R110 to R113) -/

theorem condEq_iff (a b : Word) : condEq a b = true ↔ a = b := decide_eq_true_iff

theorem condLt_iff (signed : Bool) (a b : Word) :
    condLt signed a b = true ↔
      (signed = true ∧ a.toInt < b.toInt) ∨ (signed = false ∧ a.toNat < b.toNat) := by
  cases signed <;> simp [condLt]

/-- BGT compares as BLT does, its operands exchanged (R113). -/
theorem condGt_eq_condLt (signed : Bool) (a b : Word) : condGt signed a b = condLt signed b a := rfl

theorem condGt_iff (signed : Bool) (a b : Word) :
    condGt signed a b = true ↔
      (signed = true ∧ b.toInt < a.toInt) ∨ (signed = false ∧ b.toNat < a.toNat) := by
  rw [condGt_eq_condLt, condLt_iff]

/-- Operands below 2^31 read the same signed and unsigned, so they compare the same (R110). -/
theorem condLt_of_lt {a b : Word} (ha : a.toNat < 2 ^ 31) (hb : b.toNat < 2 ^ 31) (signed : Bool) :
    condLt signed a b = decide (a.toNat < b.toNat) := by
  have hreads {v : Word} (hv : v.toNat < 2 ^ 31) : v.toInt = v.toNat :=
    BitVec.toInt_eq_toNat_of_lt (by omega)
  cases signed with
  | false => rfl
  | true => simp only [condLt, if_true, hreads ha, hreads hb, Nat.cast_lt]

/-! ## Where control goes -/

/-- A branch target is the integer sum of R110, truncated (R27). -/
theorem State.branchTarget_eq_ofInt (s : State) (mode : ImmMode) (imm : Imm12) :
    s.branchTarget mode imm = BitVec.ofInt 32 ((s.pc.toNat : Int) + 1 + immInteger mode imm) := by
  rw [BitVec.ofInt_add, BitVec.ofInt_add, ofInt_toNat, ← immOperand_eq_ofInt]
  rfl

/-- A conditional branch, its condition told as a proposition, changes the pc alone (R110). -/
theorem goesTo_of_branch {i : Instr} {s : State} {taken : Bool} {mode : ImmMode} {imm : Imm12} {p : Prop}
    [Decidable p] (h : exec i s = s.branch taken mode imm) (htaken : taken = true ↔ p) :
    GoesTo i s (if p then BitVec.ofInt 32 ((s.pc.toNat : Int) + 1 + immInteger mode imm) else s.pc + 1) := by
  apply goesTo_of_setPc
  simp only [h, State.branch_eq, State.branchTarget_eq_ofInt, htaken]

/-- JMP, whatever its register reads (R114). -/
theorem goesTo_jmp {s : State} {rs1 : RegNum} {target : Word} (h : s.readReg rs1 = target) :
    GoesTo (.jmp rs1) s target := goesTo_of_setPc (h ▸ rfl)

/-- JAL's one next state (R115). -/
theorem exec_jal (rs1 : RegNum) (s : State) :
    exec (.jal rs1) s = .next ((s.writeReg s.cfg.raIndex (s.pc + 1)).setPc (s.readReg rs1)) := rfl

/-- A register write and a jump write that register alone (R6, R22). -/
theorem regWritten_writeReg_setPc (s : State) (r : RegNum) (v p : Word) :
    RegWritten s ((s.writeReg r v).setPc p) r v :=
  ⟨s.readReg_writeReg_same r v, fun _ hr => s.readReg_writeReg_ne v hr⟩

/-! ## The same instruction under the other setting of `CMP_SIGNED` -/

theorem sameAccess_cmpSigned (cfg : Config) (signed : Bool) :
    SameAccess { cfg with cmpSigned := signed } cfg := ⟨rfl, rfl, rfl⟩

/-- BLT and BGT do the same under both settings of `CMP_SIGNED` on operands below 2^31 (R110); no other instruction
looks at the parameter. -/
theorem exec_withConfig_cmpSigned {i : Instr} {s : State} {signed : Bool}
    (hcmp : ∀ rs1 rs2 imm, i = .blt rs1 rs2 imm ∨ i = .bgt rs1 rs2 imm →
      (s.readReg rs1).toNat < 2 ^ 31 ∧ (s.readReg rs2).toNat < 2 ^ 31) :
    exec i (withConfig s { s.cfg with cmpSigned := signed }) =
      outcomeWithConfig { s.cfg with cmpSigned := signed } (exec i s) := by
  have h := sameAccess_cmpSigned s.cfg signed
  cases i
  case blt rs1 rs2 imm =>
    obtain ⟨hrs1, hrs2⟩ := hcmp rs1 rs2 imm (.inl rfl)
    simp only [exec, execBlt, h.readReg_eq, condLt_of_lt hrs1 hrs2]
    exact branch_withConfig _ rfl
  case bgt rs1 rs2 imm =>
    obtain ⟨hrs1, hrs2⟩ := hcmp rs1 rs2 imm (.inr rfl)
    simp only [exec, execBgt, h.readReg_eq, condGt_eq_condLt, condLt_of_lt hrs2 hrs1]
    exact branch_withConfig _ rfl
  case beq => exact branch_withConfig _ rfl
  case lw rd rs1 imm => exact h.execLw_eq rd rs1 rfl
  case sw rs2 rs1 imm => exact h.execSw_eq rs2 rs1 rfl
  case div rd rs1 rs2 => exact h.execDiv_eq rd rs1 rs2 rfl
  case divc rd rs1 rs2 => exact h.execDivc_eq rd rs1 rs2 rfl
  case jmp => rfl
  case jal rs1 => exact h.execJal_eq rs1 rfl
  all_goals exact h.retire_eq _ rfl

end Sys2Proof.Machine

namespace Sys2Proof.Proofs

/-- Settles O39: BEQ branches on equality. -/
theorem beqResult : Obligations.BeqResult := fun _ _ _ _ =>
  ⟨encodedBy_two_sources_imm rfl rfl, goesTo_of_branch rfl (condEq_iff _ _)⟩

/-- Settles O40: BLT branches on the comparison that `CMP_SIGNED` chooses. -/
theorem bltResult : Obligations.BltResult := fun _ _ _ _ =>
  ⟨encodedBy_two_sources_imm rfl rfl, goesTo_of_branch rfl (condLt_iff _ _ _)⟩

/-- Settles O41: BGT branches on BLT's comparison with the registers exchanged. -/
theorem bgtResult : Obligations.BgtResult := fun _ _ _ _ =>
  ⟨encodedBy_two_sources_imm rfl rfl, goesTo_of_branch rfl (condGt_iff _ _ _)⟩

/-- Settles O44: the link is written after the target is read, and the pc after both. -/
theorem jalResult : Obligations.JalResult := fun s rs1 =>
  have hlink : s.pc + 1 = BitVec.ofNat 32 (s.pc.toNat + 1) := BitVec.add_def ..
  ⟨encodedBy_one_source rfl rfl, _, exec_jal rs1 s, rfl, hlink ▸ regWritten_writeReg_setPc .., fun _ => by simp,
    by simp, by simp, by simp⟩

/-- Settles O45: JAL leaves its pc + 1 in a link register that is not hardwired, and JMP goes where it reads. -/
theorem returnGoesAfterCall : Obligations.ReturnGoesAfterCall := by
  intro s t u rs1 hra hcall hkept
  rw [exec_jal] at hcall
  cases hcall
  apply goesTo_jmp
  rw [hkept, State.readReg_setPc, State.readReg_writeReg_same, if_neg hra]

/-- Settles O56: operands below 2^31 compare the same, and nothing but BLT and BGT looks at `CMP_SIGNED`. -/
theorem comparisonReadingsAgree : Obligations.ComparisonReadingsAgree :=
  fun _ _ _ hsmall => exec_withConfig_cmpSigned hsmall

/-- Settles O42: both branch on one comparison, to one target where IMM is widened alike. -/
theorem bgtIsBltWithOperandsExchanged : Obligations.BgtIsBltWithOperandsExchanged := by
  intro s rs1 rs2 imm hmode
  simp only [exec, execBgt, execBlt, condGt_eq_condLt, hmode]

/-- Settles O43: JMP changes the pc alone. -/
theorem jmpResult : Obligations.JmpResult := fun _ _ => ⟨encodedBy_one_source rfl rfl, goesTo_jmp rfl⟩

end Sys2Proof.Proofs
end

section
/-! The statements of 44_complex.md: ADDC, SUBC, MULC, DIVC, ABS and CONJ, and where `CPLX_COMPONENT` cannot
matter. -/

open Sys2Proof Sys2Proof.Machine Sys2Proof.Safety

namespace Sys2Proof

/-- The encoding of an instruction of a source and a destination; `base` is its opcode in bits 31:27 (R62). -/
theorem encodedBy_source_destination {i : Instr} {op : BitVec 5} {rs1 rd : RegNum} {base : Word}
    (hi : encode i = layoutWord op rs1 0 rd 0) (hbase : op.setWidth 32 <<< 27 = base) :
    EncodedBy i (base ||| regAt rs1 22 ||| regAt rd 12) := by
  simpa only [regAt_zero, BitVec.or_zero] using encodedBy_three_registers hi hbase

end Sys2Proof

namespace Sys2Proof.Machine

/-! ## A half and the part put in it (R120, D23) -/

theorem fitsHalf_toInt (h : Half) : FitsHalf h.toInt :=
  ⟨BitVec.le_toInt h, Int.le_of_lt_add_one BitVec.toInt_lt⟩

theorem fitsHalf_reOf (realHi : Bool) (v : Word) : FitsHalf (reOf realHi v) := by
  cases realHi <;> exact fitsHalf_toInt _

theorem fitsHalf_imOf (realHi : Bool) (v : Word) : FitsHalf (imOf realHi v) := by
  cases realHi <;> exact fitsHalf_toInt _

theorem toInt_trunc16_of_fits {n : Int} (h : FitsHalf n) : (trunc16 n).toInt = n :=
  BitVec.toInt_ofInt_eq_self (by decide) h.1 (Int.lt_add_one_of_le h.2)

/-- What the half that holds a part reads as, under every setting of `CPLX_COMPONENT`. -/
theorem toInt_componentHalf (c : CplxComponent) (n : Int) :
    (componentHalf c n).toInt = componentValue c n := by
  cases c with
  | wrap => exact BitVec.toInt_ofInt n
  | saturate =>
    rw [componentHalf, toInt_trunc16_of_fits (by omega), componentValue]
    split_ifs <;> omega
  | free =>
    simp only [componentHalf, componentValue]
    split_ifs with h
    · exact toInt_trunc16_of_fits h
    · rfl

theorem componentValue_of_fits {n : Int} (h : FitsHalf n) (c : CplxComponent) : componentValue c n = n := by
  rw [← toInt_componentHalf, componentHalf_of_fits h, toInt_trunc16_of_fits h]

/-- Negating what a half holds twice gives it back, but for the one part whose negation does not fit; there the
default setting wraps both times. -/
theorem componentValue_neg_neg {c : CplxComponent} {n : Int} (h : FitsHalf n) (hc : c = .wrap ∨ n ≠ -32768) :
    componentValue c (-componentValue c (-n)) = n := by
  by_cases hn : n = -32768
  · obtain rfl := hc.resolve_right (not_not_intro hn)
    subst hn
    rfl
  · rw [componentValue_of_fits (n := -n) (by omega), neg_neg, componentValue_of_fits h]

/-! ## A packed word and its parts (R120) -/

theorem reOf_packComplex_eq_componentValue (cfg : Config) (a b : Int) :
    reOf cfg.cplxRealHi (packComplex cfg a b) = componentValue cfg.cplxComponent a := by
  rw [reOf_packComplex, toInt_componentHalf]

theorem imOf_packComplex_eq_componentValue (cfg : Config) (a b : Int) :
    imOf cfg.cplxRealHi (packComplex cfg a b) = componentValue cfg.cplxComponent b := by
  rw [imOf_packComplex, toInt_componentHalf]

/-- Packing the parts that a word reads as gives the word, under every setting and either layout. -/
theorem packComplex_reOf_imOf (cfg : Config) (v : Word) :
    packComplex cfg (reOf cfg.cplxRealHi v) (imOf cfg.cplxRealHi v) = v := by
  simp only [packComplex, componentHalf_of_fits (fitsHalf_reOf _ v), componentHalf_of_fits (fitsHalf_imOf _ v)]
  cases cfg.cplxRealHi <;> simp [reOf, imOf, trunc16, hiHalf_append_loHalf]

/-- A word is its two parts. -/
theorem eq_of_parts_eq (cfg : Config) {v w : Word} (hre : reOf cfg.cplxRealHi v = reOf cfg.cplxRealHi w)
    (him : imOf cfg.cplxRealHi v = imOf cfg.cplxRealHi w) : v = w := by
  rw [← packComplex_reOf_imOf cfg v, hre, him, packComplex_reOf_imOf]

/-- 0 + 0i is the word 0 (R122). -/
theorem normSq_eq_zero_iff (cfg : Config) (v : Word) :
    reOf cfg.cplxRealHi v * reOf cfg.cplxRealHi v + imOf cfg.cplxRealHi v * imOf cfg.cplxRealHi v = 0 ↔
      v = 0 := by
  have hre0 : reOf cfg.cplxRealHi 0 = 0 := ite_self 0
  have him0 : imOf cfg.cplxRealHi 0 = 0 := ite_self 0
  constructor
  · intro h
    obtain ⟨hre, him⟩ := mul_self_add_mul_self_eq_zero.1 h
    exact eq_of_parts_eq cfg (hre.trans hre0.symm) (him.trans him0.symm)
  · rintro rfl
    rw [hre0, him0]
    rfl

/-- An instruction that retires a packed word writes one whose halves hold the parts. -/
theorem exists_writesResult_packComplex {i : Instr} {s : State} {rd : RegNum} {a b : Int}
    (h : exec i s = s.retire rd (packComplex s.cfg a b)) :
    ∃ v, WritesResult i s rd v ∧ reOf s.cfg.cplxRealHi v = componentValue s.cfg.cplxComponent a ∧
      imOf s.cfg.cplxRealHi v = componentValue s.cfg.cplxComponent b :=
  ⟨_, writesResult_of_retire h, reOf_packComplex_eq_componentValue .., imOf_packComplex_eq_componentValue ..⟩

/-! ## The default setting on whole words: each half modulo 2^16 (D23) -/

theorem append_eq_ofNat (h l : Half) : h ++ l = BitVec.ofNat 32 (h.toNat * 65536 + l.toNat) := by
  have hl := l.isLt
  apply BitVec.eq_of_toNat_eq
  rw [BitVec.toNat_append, ← Nat.shiftLeft_add_eq_or_of_lt hl, Nat.shiftLeft_eq, BitVec.toNat_ofNat]
  omega

theorem toNat_hiHalf (v : Word) : (hiHalf v).toNat = v.toNat / 65536 := by
  have hv := v.isLt
  rw [hiHalf, BitVec.extractLsb'_toNat, Nat.shiftRight_eq_div_pow]
  omega

theorem toNat_loHalf (v : Word) : (loHalf v).toNat = v.toNat % 65536 := BitVec.extractLsb'_toNat ..

section
variable {cfg : Config} (hc : cfg.cplxComponent = .wrap)
include hc

theorem packComplex_wrap (a b : Int) :
    packComplex cfg a b = if cfg.cplxRealHi = true then trunc16 a ++ trunc16 b else trunc16 b ++ trunc16 a := by
  simp only [packComplex, hc, componentHalf]

theorem packComplex_add (x y : Word) :
    packComplex cfg (reOf cfg.cplxRealHi x + reOf cfg.cplxRealHi y)
        (imOf cfg.cplxRealHi x + imOf cfg.cplxRealHi y) =
      (hiHalf x + hiHalf y) ++ (loHalf x + loHalf y) := by
  rw [packComplex_wrap hc]
  cases cfg.cplxRealHi <;> simp [reOf, imOf, trunc16, BitVec.ofInt_add]

theorem packComplex_sub (x y : Word) :
    packComplex cfg (reOf cfg.cplxRealHi x - reOf cfg.cplxRealHi y)
        (imOf cfg.cplxRealHi x - imOf cfg.cplxRealHi y) =
      (hiHalf x - hiHalf y) ++ (loHalf x - loHalf y) := by
  rw [packComplex_wrap hc]
  cases cfg.cplxRealHi <;> simp [reOf, imOf, trunc16, ofInt_sub]

theorem packComplex_conj (x : Word) :
    packComplex cfg (reOf cfg.cplxRealHi x) (-imOf cfg.cplxRealHi x) =
      if cfg.cplxRealHi = true then hiHalf x ++ -loHalf x else -hiHalf x ++ loHalf x := by
  rw [packComplex_wrap hc]
  cases cfg.cplxRealHi <;> simp [reOf, imOf, trunc16, BitVec.ofInt_neg]

/-- A real part below 2^16 is there as an unsigned pattern (D25). -/
theorem packComplex_natCast {m : Nat} (hm : m < 65536) :
    packComplex cfg m 0 = BitVec.ofNat 32 (if cfg.cplxRealHi = true then m * 65536 else m) := by
  have hpattern : (trunc16 m).toNat = m := by
    rw [trunc16, BitVec.ofInt_natCast, BitVec.toNat_ofNat, Nat.mod_eq_of_lt hm]
  have hzero : (trunc16 0).toNat = 0 := rfl
  rw [packComplex_wrap hc, append_eq_ofNat, append_eq_ofNat, hpattern, hzero]
  split_ifs <;> simp

end

/-! ## The modulus (R126) -/

/-- The search keeps the root between `r` and `r + 2^k`. -/
theorem floorSqrtFrom_eq_sqrt {n k r : Nat} (hlo : r * r ≤ n) (hhi : n < (r + 2 ^ k) * (r + 2 ^ k)) :
    floorSqrtFrom n k r = n.sqrt := by
  induction k generalizing r with
  | zero => exact Nat.eq_sqrt.2 ⟨hlo, hhi⟩
  | succ k ih =>
    rw [floorSqrtFrom]
    split_ifs with h
    · exact ih h (by rwa [add_assoc, ← two_mul, ← pow_succ'])
    · exact ih hlo (not_le.1 h)

theorem floorSqrt_eq_sqrt {n : Nat} (h : n < 2 ^ 32) : floorSqrt n = n.sqrt :=
  floorSqrtFrom_eq_sqrt n.zero_le (by omega)

/-- The squares of two signed halves add up to 2^31 at most. -/
theorem normSq_le (realHi : Bool) (v : Word) :
    reOf realHi v * reOf realHi v + imOf realHi v * imOf realHi v ≤ 2 ^ 31 := by
  have hsquare {n : Int} (h : FitsHalf n) : n * n ≤ 2 ^ 30 := by
    linarith only [mul_nonneg (a := 32768 + n) (b := 32768 - n) (by omega) (by omega)]
  linarith only [hsquare (fitsHalf_reOf realHi v), hsquare (fitsHalf_imOf realHi v)]

/-- The default `ABS_FN` packs the integer square root. -/
theorem complexModulus_eq_sqrt (cfg : Config) (x : Word) :
    complexModulus cfg x = packComplex cfg
      ((reOf cfg.cplxRealHi x * reOf cfg.cplxRealHi x + imOf cfg.cplxRealHi x * imOf cfg.cplxRealHi x).toNat.sqrt)
      0 := by
  have hle := normSq_le cfg.cplxRealHi x
  rw [complexModulus, floorSqrt_eq_sqrt (by omega)]

/-! ## The functions of the complex instructions under each setting -/

theorem mulcResult_of_intProduct {cfg : Config} (hfn : cfg.mulcFn = .intProduct) (x y : Word) :
    mulcResult cfg x y = complexProduct cfg x y := by
  rw [mulcResult, hfn]

theorem mulcResult_of_free {cfg : Config} (hfn : cfg.mulcFn = .free) (x y : Word) :
    mulcResult cfg x y = Config.freeMulc x y := by
  rw [mulcResult, hfn]

theorem divcResult_of_truncQuotient {cfg : Config} (hfn : cfg.divcFn = .truncQuotient) (x y : Word) :
    divcResult cfg x y = complexQuotient cfg x y := by
  rw [divcResult, hfn]

theorem divcResult_of_free {cfg : Config} (hfn : cfg.divcFn = .free) (x y : Word) :
    divcResult cfg x y = Config.freeDivc x y := by
  rw [divcResult, hfn]

theorem absResult_of_modulus {cfg : Config} (hfn : cfg.absFn = .modulus) (x : Word) :
    absResult cfg x = complexModulus cfg x := by
  rw [absResult, hfn]

theorem absResult_of_free {cfg : Config} (hfn : cfg.absFn = .free) (x : Word) :
    absResult cfg x = Config.freeAbs x := by
  rw [absResult, hfn]

/-- DIVC where `DIVC_FN` gives a word (R122). -/
theorem exec_divc_of_some {s : State} {rd rs1 rs2 : RegNum} {v : Word}
    (h : divcResult s.cfg (s.readReg rs1) (s.readReg rs2) = some v) :
    exec (.divc rd rs1 rs2) s = s.retire rd v := by
  rw [exec, execDivc, h]

/-- DIVC where `DIVC_FN` gives none (R122). -/
theorem exec_divc_of_none {s : State} {rd rs1 rs2 : RegNum}
    (h : divcResult s.cfg (s.readReg rs1) (s.readReg rs2) = none) :
    exec (.divc rd rs1 rs2) s = .fault .complexDivideByZero := by
  rw [exec, execDivc, h, raise]

theorem complexQuotient_of_ne_zero (cfg : Config) (x : Word) {y : Word} (hy : y ≠ 0) :
    complexQuotient cfg x y =
      let re := reOf cfg.cplxRealHi
      let im := imOf cfg.cplxRealHi
      let n := re y * re y + im y * im y
      some (packComplex cfg ((re x * re y + im x * im y).tdiv n) ((im x * re y - re x * im y).tdiv n)) :=
  if_neg (mt (normSq_eq_zero_iff cfg y).1 hy)

/-! ## The same instruction under another `CPLX_COMPONENT` -/

theorem sameAccess_cplxComponent (cfg : Config) (c : CplxComponent) :
    SameAccess { cfg with cplxComponent := c } cfg := ⟨rfl, rfl, rfl⟩

/-- A product whose parts fit does not depend on `CPLX_COMPONENT`, and a free function never does. -/
theorem mulcResult_withComponent {s : State} {rd rs1 rs2 : RegNum} (c : CplxComponent)
    (hfit : ∀ n ∈ exactParts s (.mulc rd rs1 rs2), FitsHalf n) :
    mulcResult { s.cfg with cplxComponent := c } (s.readReg rs1) (s.readReg rs2) =
      mulcResult s.cfg (s.readReg rs1) (s.readReg rs2) := by
  cases hfn : s.cfg.mulcFn with
  | intProduct =>
    simp only [exactParts, hfn, if_true, List.forall_mem_cons] at hfit
    obtain ⟨hre, him, -⟩ := hfit
    simp only [mulcResult_of_intProduct, hfn]
    exact packComplex_of_fits hre him s.cfg c
  | free => simp only [mulcResult_of_free, hfn]

/-- The same of a quotient; by 0 + 0i there is none under any setting. -/
theorem divcResult_withComponent {s : State} {rd rs1 rs2 : RegNum} (c : CplxComponent)
    (hfit : ∀ n ∈ exactParts s (.divc rd rs1 rs2), FitsHalf n) :
    divcResult { s.cfg with cplxComponent := c } (s.readReg rs1) (s.readReg rs2) =
      divcResult s.cfg (s.readReg rs1) (s.readReg rs2) := by
  cases hfn : s.cfg.divcFn with
  | truncQuotient =>
    simp only [exactParts, hfn, if_true, List.forall_mem_cons] at hfit
    obtain ⟨hre, him, -⟩ := hfit
    simp only [divcResult_of_truncQuotient, hfn]
    by_cases hy : s.readReg rs2 = 0
    · rw [hy, complexQuotient_zero, complexQuotient_zero]
    · rw [complexQuotient_of_ne_zero _ _ hy, complexQuotient_of_ne_zero _ _ hy]
      exact congrArg some (packComplex_of_fits hre him s.cfg c)
  | free => simp only [divcResult_of_free, hfn]

/-- The same of a modulus; the 0 in the other half fits always. -/
theorem absResult_withComponent {s : State} {rd rs1 : RegNum} (c : CplxComponent)
    (hfit : ∀ n ∈ exactParts s (.abs rd rs1), FitsHalf n) :
    absResult { s.cfg with cplxComponent := c } (s.readReg rs1) = absResult s.cfg (s.readReg rs1) := by
  cases hfn : s.cfg.absFn with
  | modulus =>
    simp only [exactParts, hfn, if_true, List.forall_mem_singleton] at hfit
    simp only [absResult_of_modulus, hfn, complexModulus_eq_sqrt]
    exact packComplex_of_fits hfit (by decide) s.cfg c
  | free => simp only [absResult_of_free, hfn]

/-- An instruction whose parts fit their halves does the same under every `CPLX_COMPONENT`; one that puts no part in
a half does not look at it. -/
theorem exec_withConfig_cplxComponent {i : Instr} {s : State} {c : CplxComponent}
    (hfit : ∀ n ∈ exactParts s i, FitsHalf n) :
    exec i (withConfig s { s.cfg with cplxComponent := c }) =
      outcomeWithConfig { s.cfg with cplxComponent := c } (exec i s) := by
  have h := sameAccess_cplxComponent s.cfg c
  cases i
  case addc rd rs1 rs2 | subc rd rs1 rs2 | conj rd rs1 =>
    simp only [exactParts, List.forall_mem_cons] at hfit
    obtain ⟨hre, him, -⟩ := hfit
    exact h.retire_eq rd (packComplex_of_fits hre him s.cfg c)
  case mulc rd rs1 rs2 => exact h.retire_eq rd (mulcResult_withComponent c hfit)
  case divc rd rs1 rs2 => exact h.execDivc_eq rd rs1 rs2 (divcResult_withComponent c hfit)
  case abs rd rs1 => exact h.retire_eq rd (absResult_withComponent c hfit)
  case beq | blt | bgt => exact branch_withConfig _ rfl
  case lw rd rs1 imm => exact h.execLw_eq rd rs1 rfl
  case sw rs2 rs1 imm => exact h.execSw_eq rs2 rs1 rfl
  case div rd rs1 rs2 => exact h.execDiv_eq rd rs1 rs2 rfl
  case jmp => rfl
  case jal rs1 => exact h.execJal_eq rs1 rfl
  all_goals exact h.retire_eq _ rfl

end Sys2Proof.Machine

namespace Sys2Proof.Proofs

/-- Settles O48: each half is packed by itself, and truncation to 16 bits respects + and -. -/
theorem addcSubcResults : Obligations.AddcSubcResults := by
  intro s rd rs1 rs2
  refine ⟨encodedBy_three_registers rfl rfl, encodedBy_three_registers rfl rfl,
    exists_writesResult_packComplex rfl, exists_writesResult_packComplex rfl, fun hc => ⟨?_, ?_⟩⟩
  · apply writesResult_of_retire
    simp only [← toNat_hiHalf, ← toNat_loHalf]
    rw [exec, execAddc, packComplex_add hc, append_eq_ofNat, BitVec.toNat_add, BitVec.toNat_add]
  · apply writesResult_of_retire
    simp only [← toNat_hiHalf, ← toNat_loHalf]
    rw [exec, execSubc, packComplex_sub hc, append_eq_ofNat, BitVec.toNat_sub', BitVec.toNat_sub']

/-- Settles O49, by the setting of `MULC_FN`. -/
theorem mulcResult : Obligations.MulcResult := fun s rd _ _ =>
  ⟨encodedBy_three_registers rfl rfl,
    fun hfn => exists_writesResult_packComplex (congrArg (s.retire rd) (mulcResult_of_intProduct hfn _ _)),
    fun hfn => writesResult_of_retire (congrArg (s.retire rd) (mulcResult_of_free hfn _ _))⟩

/-- Settles O50: a divisor other than the word 0 has a norm other than 0. -/
theorem divcResult : Obligations.DivcResult := by
  refine fun s rd rs1 rs2 => ⟨encodedBy_three_registers rfl rfl, fun hfn hy => ?_, fun hfn => ?_⟩
  · exact exists_writesResult_packComplex (exec_divc_of_some
      ((divcResult_of_truncQuotient hfn _ _).trans (complexQuotient_of_ne_zero _ _ hy)))
  · have hfree := divcResult_of_free hfn (s.readReg rs1) (s.readReg rs2)
    split
    · next v hv => exact writesResult_of_retire (exec_divc_of_some (hfree.trans hv))
    · next hv => exact exec_divc_of_none (hfree.trans hv)

/-- Settles O51: the modulus is the integer square root of a number that is at most 2^31. -/
theorem absResult : Obligations.AbsResult := by
  refine fun s rd rs1 => ⟨encodedBy_source_destination rfl rfl, fun hfn => ?_, fun hfn =>
    writesResult_of_retire (congrArg (s.retire rd) (absResult_of_free hfn _))⟩
  have hword := (absResult_of_modulus hfn (s.readReg rs1)).trans (complexModulus_eq_sqrt _ _)
  have hle := normSq_le s.cfg.cplxRealHi (s.readReg rs1)
  have hnonneg := add_nonneg (mul_self_nonneg (reOf s.cfg.cplxRealHi (s.readReg rs1)))
    (mul_self_nonneg (imOf s.cfg.cplxRealHi (s.readReg rs1)))
  obtain ⟨n, hn⟩ := Int.eq_ofNat_of_zero_le hnonneg
  simp only [hn, Int.toNat_natCast] at hword hle ⊢
  have hroot : n.sqrt ≤ 46340 := Nat.le_of_lt_succ (Nat.sqrt_lt.2 (by omega))
  refine ⟨n.sqrt, _, mod_cast n.sqrt_le, mod_cast n.lt_succ_sqrt, hroot,
    writesResult_of_retire (congrArg (s.retire rd) hword), reOf_packComplex_eq_componentValue .., ?_,
    fun hc => packComplex_natCast hc (by omega)⟩
  rw [imOf_packComplex_eq_componentValue, componentValue_of_fits (by decide)]

/-- Settles O52: the real part fits its half; under the default setting the negation is modulo 2^16. -/
theorem conjResult : Obligations.ConjResult := by
  refine fun s rd rs1 => ⟨encodedBy_source_destination rfl rfl, _, writesResult_of_retire rfl, ?_,
    imOf_packComplex_eq_componentValue .., fun hc => ?_⟩
  · rw [reOf_packComplex_eq_componentValue, componentValue_of_fits (fitsHalf_reOf _ _)]
  · simp only [← toNat_hiHalf, ← toNat_loHalf]
    rw [packComplex_conj hc]
    split_ifs
    · rw [append_eq_ofNat, BitVec.toNat_neg]
    · rw [append_eq_ofNat, BitVec.toNat_neg]

/-- Settles O53: the second CONJ negates what the half holds of the first negation, which gives the part back. -/
theorem conjTwiceIsIdentity : Obligations.ConjTwiceIsIdentity := by
  intro s t rd rs1 re hrd hc hexec
  cases hexec
  refine writesResult_of_retire (congrArg (State.retire _ re) ?_)
  simp only [State.readReg_advance, State.readReg_writeReg_same, if_neg hrd, State.advance_cfg, State.writeReg_cfg,
    reOf_packComplex_eq_componentValue, imOf_packComplex_eq_componentValue]
  have hre := fitsHalf_reOf s.cfg.cplxRealHi (s.readReg rs1)
  apply eq_of_parts_eq s.cfg
  · rw [reOf_packComplex_eq_componentValue, componentValue_of_fits hre, componentValue_of_fits hre]
  · rw [imOf_packComplex_eq_componentValue, componentValue_neg_neg (fitsHalf_imOf _ _) hc]

/-- Settles O57: a packed word whose parts fit does not depend on `CPLX_COMPONENT`. -/
theorem componentSettingMattersOnlyOnOverflow : Obligations.ComponentSettingMattersOnlyOnOverflow :=
  fun _ _ _ hfit => exec_withConfig_cplxComponent hfit

end Sys2Proof.Proofs
end

section
/-! The statements of 60_exceptions.md: which steps fault, in the order of R143, and what a fault leaves. -/

open Sys2Proof Sys2Proof.Machine Sys2Proof.Safety

namespace Sys2Proof.Machine

/-! ## Faults of execution (R42, R85, R122) -/

/-- The default `DIVC_FN` has no quotient exactly where the divisor is 0 + 0i (R122). -/
theorem complexQuotient_eq_none_iff (cfg : Config) (x y : Word) : complexQuotient cfg x y = none ↔ y = 0 := by
  constructor
  · intro hnone
    by_contra hy
    rw [complexQuotient_of_ne_zero cfg x hy] at hnone
    cases hnone
  · rintro rfl
    exact complexQuotient_zero cfg x

/-- Where `DIVC_FN` has no value, by its setting (R122; log entry 11). -/
theorem divcResult_eq_none_iff (cfg : Config) (x y : Word) :
    divcResult cfg x y = none ↔
      (cfg.divcFn = .truncQuotient ∧ y = 0) ∨ (cfg.divcFn = .free ∧ Config.freeDivc x y = none) := by
  cases hfn : cfg.divcFn with
  | truncQuotient => simp [divcResult_of_truncQuotient hfn, complexQuotient_eq_none_iff]
  | free => simp [divcResult_of_free hfn]

section
variable (s : State) (f : Fault)

/-- A branch never faults. -/
theorem State.branch_ne_fault (taken : Bool) (mode : ImmMode) (imm : Imm12) :
    s.branch taken mode imm ≠ .fault f := by
  rw [State.branch_eq]
  nofun

/-- DIV faults exactly where the divisor is 0 (R85). -/
theorem execDiv_eq_fault_iff (rd rs1 rs2 : RegNum) :
    execDiv rd rs1 rs2 s = .fault f ↔ s.readReg rs2 = 0 ∧ f = .divideByZero := by
  by_cases hz : s.readReg rs2 = 0
  · simp [execDiv_of_eq_zero hz, hz, eq_comm]
  · rw [execDiv_of_ne_zero hz]
    exact iff_of_false nofun fun h => hz h.1

/-- DIVC faults exactly where `DIVC_FN` has no value (R122). -/
theorem execDivc_eq_fault_iff (rd rs1 rs2 : RegNum) :
    execDivc rd rs1 rs2 s = .fault f ↔
      divcResult s.cfg (s.readReg rs1) (s.readReg rs2) = none ∧ f = .complexDivideByZero := by
  unfold execDivc
  cases divcResult s.cfg (s.readReg rs1) (s.readReg rs2) with
  | none => simp [raise, eq_comm]
  | some v => simp [State.retire_eq]

/-- LW faults exactly where its address is outside `DMEM_WORDS` (R42). -/
theorem execLw_eq_fault_iff (rd rs1 : RegNum) (imm : Imm12) :
    execLw rd rs1 imm s = .fault f ↔
      s.cfg.dmemWords ≤ (s.effectiveAddress s.cfg.immExt.lw rs1 imm).toNat ∧
        f = .dataAddressOutOfRange (s.effectiveAddress s.cfg.immExt.lw rs1 imm) := by
  rw [← State.dataRead_error_iff, execLw]
  cases s.dataRead (s.effectiveAddress s.cfg.immExt.lw rs1 imm) with
  | error g => simp [raise]
  | ok v => simp [State.retire_eq]

/-- SW faults exactly where its address is outside `DMEM_WORDS` (R42). -/
theorem execSw_eq_fault_iff (rs2 rs1 : RegNum) (imm : Imm12) :
    execSw rs2 rs1 imm s = .fault f ↔
      s.cfg.dmemWords ≤ (s.effectiveAddress s.cfg.immExt.sw rs1 imm).toNat ∧
        f = .dataAddressOutOfRange (s.effectiveAddress s.cfg.immExt.sw rs1 imm) := by
  rw [← State.dataWrite_error_iff _ _ (s.readReg rs2), execSw]
  cases s.dataWrite (s.effectiveAddress s.cfg.immExt.sw rs1 imm) (s.readReg rs2) with
  | error g => simp [raise]
  | ok t => simp

/-- The list of execute-stage faults is complete: DIV, DIVC, LW and SW fault as it says, and no other
instruction faults. -/
theorem exec_eq_fault_iff (i : Instr) : exec i s = .fault f ↔ ExecuteFault i s f := by
  cases i
  case div => simp [exec, execDiv_eq_fault_iff, ExecuteFault]
  case divc => simp [exec, execDivc_eq_fault_iff, divcResult_eq_none_iff, ExecuteFault, and_comm]
  case lw => simp [exec, execLw_eq_fault_iff, ExecuteFault]
  case sw => simp [exec, execSw_eq_fault_iff, ExecuteFault]
  case beq | blt | bgt => exact iff_of_false (s.branch_ne_fault f _ _ _) (by simp [ExecuteFault])
  all_goals exact iff_of_false nofun (by simp [ExecuteFault])

/-! ## Faults of fetch, of decode and of a step (R53, R66, R67, R143) -/

/-- Fetch faults outside the program, and decode faults on a word that spells no instruction. -/
theorem State.fetchInstr_eq_error_iff :
    s.fetchInstr = .error f ↔
      (s.program.length ≤ s.pc.toNat ∧ f = .fetchOutOfRange s.pc) ∨
      ∃ w, s.program[s.pc.toNat]? = some w ∧
        ∃ e, decode s.cfg.strictUnused w = .error e ∧ f = faultOfDecode e := by
  rw [← List.getElem?_eq_none_iff]
  unfold State.fetchInstr State.fetch
  cases hw : s.program[s.pc.toNat]? with
  | none => simp [eq_comm]
  | some w => cases hd : decode s.cfg.strictUnused w <;> simp [hd, eq_comm]

/-- The fault of a word that spells no instruction, by decode's two errors. -/
theorem exists_decode_error_iff (strict : Bool) (w : Word) :
    (∃ e, decode strict w = .error e ∧ f = faultOfDecode e) ↔
      (decode strict w = .error (.illegalInstruction w) ∧ f = .illegalInstruction w) ∨
      (decode strict w = .error (.reservedEncoding w) ∧ f = .reservedEncoding w) := by
  constructor
  · rintro ⟨e, he, rfl⟩
    obtain rfl | rfl := decode_error he
    · exact .inl ⟨he, rfl⟩
    · exact .inr ⟨he, rfl⟩
  · rintro (⟨he, rfl⟩ | ⟨he, rfl⟩)
    · exact ⟨_, he, rfl⟩
    · exact ⟨_, he, rfl⟩

/-- A step faults with its state's mark, or from an unmarked state away from `HALT_PC` in fetch and decode
or in the instruction it fetched. -/
theorem step_eq_fault_iff :
    step s = .fault f ↔
      s.faultMark = some f ∨
      (s.faultMark = none ∧ s.pc.toNat ≠ s.haltAddr ∧
        (s.fetchInstr = .error f ∨ ∃ i, s.fetchInstr = .ok i ∧ exec i s = .fault f)) := by
  unfold step State.atHalt
  cases hm : s.faultMark with
  | some g => simp [raise]
  | none =>
    by_cases hh : s.pc.toNat = s.haltAddr
    · simp [hh]
    · cases hf : s.fetchInstr <;> simp [hh, raise]

end

/-! ## What a fault leaves (R141, log entry 6) -/

section
variable {s : State} {f : Fault}

/-- A marked state answers its mark. -/
theorem step_of_marked (h : s.faultMark = some f) : step s = .fault f :=
  (step_eq_fault_iff s f).2 (.inl h)

theorem State.settle_of_fault (h : step s = .fault f) : s.settle = s.markFault f := by
  simp only [State.settle, h]

/-- A faulting step leaves the state marked with its fault, whether it was marked before or not. -/
theorem State.faultMark_markFault_of_fault (h : step s = .fault f) : (s.markFault f).faultMark = some f := by
  obtain hmark | ⟨hnone, -⟩ := (step_eq_fault_iff s f).1 h
  · rwa [State.markFault_of_some hmark]
  · exact State.markFault_of_none hnone f

/-- A marked state is settled: its step marks nothing more. -/
theorem State.settle_of_marked (h : s.faultMark = some f) : s.settle = s := by
  rw [State.settle_of_fault (step_of_marked h), State.markFault_of_some h]

/-- A marked state is not final (R162). -/
theorem State.final_of_marked (h : s.faultMark = some f) : s.final = false := by
  simp [State.final, h]

end

end Sys2Proof.Machine

namespace Sys2Proof.Proofs

/-- Settles O11: a word in the program is fetched, and then decodes to an error or to an instruction. -/
theorem stepFaultsExactly : Obligations.StepFaultsExactly := by
  intro s f
  simp only [step_eq_fault_iff, State.fetchInstr_eq_error_iff, State.fetchInstr_ok_iff, exec_eq_fault_iff,
    exists_decode_error_iff]
  refine or_congr_right (and_congr_right fun _ => and_congr_right fun _ => ⟨?_, ?_⟩)
  · rintro ((hfetch | ⟨w, hw, hdecode⟩) | ⟨i, ⟨w, hw, hi⟩, hexec⟩)
    · exact .inl hfetch
    · exact .inr ⟨w, hw, hdecode.imp_right .inl⟩
    · exact .inr ⟨w, hw, .inr (.inr ⟨i, hi, hexec⟩)⟩
  · rintro (hfetch | ⟨w, hw, hillegal | hreserved | ⟨i, hi, hexec⟩⟩)
    · exact .inl (.inl hfetch)
    · exact .inl (.inr ⟨w, hw, .inl hillegal⟩)
    · exact .inl (.inr ⟨w, hw, .inr hreserved⟩)
    · exact .inr ⟨i, ⟨w, hw, hi⟩, hexec⟩

/-- Settles O12: a fault sets the mark and nothing else, and a marked state answers its mark. -/
theorem faultsArePreciseAndFinal : Obligations.FaultsArePreciseAndFinal := by
  intro s f h
  have hmark := State.faultMark_markFault_of_fault h
  rw [State.settle_of_fault h]
  exact ⟨s.markFault_regs f, s.markFault_pc f, s.markFault_mem f, s.markFault_program f, s.markFault_cfg f, hmark,
    step_of_marked hmark, State.settle_of_marked hmark, State.final_of_marked hmark⟩

end Sys2Proof.Proofs
end

section
/-! The statement of 70_reset_and_hazards.md: where a run is over, and that nothing else refuses a step. -/

open Sys2Proof Sys2Proof.Machine

namespace Sys2Proof.Machine

/-- The pc is `HALT_PC` where the parameter names it, or names nothing and the pc is just past the program
(R162, log entry 17). -/
theorem State.pc_eq_haltAddr_iff (s : State) :
    s.pc.toNat = s.haltAddr ↔
      (s.cfg.haltPc = none ∧ s.pc.toNat = s.program.length) ∨ s.cfg.haltPc = some s.pc := by
  cases h : s.cfg.haltPc with
  | none => simp [State.haltAddr, h]
  | some a => simp [State.haltAddr, h, ← BitVec.toNat_inj, eq_comm]

/-- No instruction is refused: each goes on or faults. -/
theorem exec_ne_refused (i : Instr) (s : State) (r : Refusal) : exec i s ≠ .refused r := by
  cases i
  case div | divc | lw | sw =>
    simp only [exec, execDiv, execDivc, execLw, execSw]
    split <;> nofun
  all_goals nofun

/-- A step is refused only with `runOver`, and exactly in an unmarked state at `HALT_PC`. -/
theorem step_eq_refused_iff (s : State) (r : Refusal) :
    step s = .refused r ↔ s.faultMark = none ∧ s.pc.toNat = s.haltAddr ∧ r = .runOver := by
  unfold step State.atHalt
  cases hm : s.faultMark with
  | some f => simp [raise]
  | none =>
    by_cases hh : s.pc.toNat = s.haltAddr
    · simp [hh, eq_comm]
    · cases hf : s.fetchInstr with
      | error f => simp [hh, raise]
      | ok i => simp [hh, exec_ne_refused i s r]

end Sys2Proof.Machine

namespace Sys2Proof.Proofs

/-- Settles O10: the only refusal of a step is that of an unmarked state at `HALT_PC`. -/
theorem runEndsExactlyAtHaltPc : Obligations.RunEndsExactlyAtHaltPc := by
  intro s
  constructor
  · rw [step_eq_refused_iff, s.pc_eq_haltAddr_iff, and_iff_left rfl]
  · intro r h
    obtain ⟨-, -, hr⟩ := (step_eq_refused_iff s r).1 h
    exact hr

end Sys2Proof.Proofs
end
